-- ==== Sys2Proof/Word.lean ====
section
/-! DEFINITION. The plain data the decoder's words are made of: the capture byte, a byte-addressed memory, the nine
states of the framing machine, a host request. Rules R11, R80, R87, R99 of spec/. -/

namespace Sys2Proof

/-- A capture byte or a channel value: 8 bits, bit 7 the earliest sample (R11, R55, R80). -/
abbrev Byte := BitVec 8

/-- A byte-addressed memory: (address, byte) pairs in the canonical form `Machine.Memory.wf` states. Both address spaces
of R50 are held this way. -/
abbrev Memory := List Host.Cell

/-- The nine states of the framing machine, in the order of R87. R94 asks for an enumeration of nine constructors, so that
the reserved codes 9 to 15 cannot be expressed. -/
inductive LineState where
  | waitForBreak
  | inBreak
  | waitForMab
  | inMab
  | inStartcode
  | inStartcodeStopbits
  | inDataStartbit
  | inDataBits
  | inDataStopbits
deriving DecidableEq, Repr

/-- One transaction on the decoder's request inputs (R99, R100): the two request bits and the payload sampled with them.
`sink` and `callbackPresent` are sampled with `rst`, `chunk` and `size` with `start`. -/
structure HostRequest where
  /-- Port `rst`: `Construct`. -/
  rst : Bool
  /-- Port `start`: `parse` entry. -/
  start : Bool
  /-- The store `Construct` binds as the sink (R110), by its number (log 1). -/
  sink : Nat
  /-- Port `callback_present` (R100, R110). -/
  callbackPresent : Bool
  /-- The bytes of the chunk that `parse` binds (R111), by value (log 1). -/
  chunk : Memory
  /-- Port `size` (R100, R111). -/
  size : Nat
deriving DecidableEq, Repr

end Sys2Proof
end

