-- ==== Sys2Proof/Machine/Encodings.lean ====
section
/-! DEFINITION. The encodings a step reads: the state codes (R87), the two edge detectors (R130, R131), the bytes they
accept (R84, R85) and the bit sampler (R133). -/

namespace Sys2Proof.Machine

/-- The 4-bit code of a state (R87). -/
def stateCode : LineState → BitVec 4
  | .waitForBreak => 0
  | .inBreak => 1
  | .waitForMab => 2
  | .inMab => 3
  | .inStartcode => 4
  | .inStartcodeStopbits => 5
  | .inDataStartbit => 6
  | .inDataBits => 7
  | .inDataStopbits => 8

/-- The state a 4-bit code stands for; the codes 9 to 15 are reserved and stand for none (R87, R94). -/
def stateOfCode (c : BitVec 4) : Option LineState :=
  match c.toNat with
  | 0 => some .waitForBreak
  | 1 => some .inBreak
  | 2 => some .waitForMab
  | 3 => some .inMab
  | 4 => some .inStartcode
  | 5 => some .inStartcodeStopbits
  | 6 => some .inDataStartbit
  | 7 => some .inDataBits
  | 8 => some .inDataStopbits
  | _ => none

/-- `falling_edge(b)` (R84, R130): the count of low samples at the end of a byte of the shape `1^k 0^(8-k)`, `k` in 0 to 7,
and `none` (the spec's NONE) on every other byte. C1: the count is that of the trailing zeros. -/
def fallingEdge (b : Byte) : Option Nat :=
  match b.toNat with
  | 0x00 => some 8
  | 0x80 => some 7
  | 0xC0 => some 6
  | 0xE0 => some 5
  | 0xF0 => some 4
  | 0xF8 => some 3
  | 0xFC => some 2
  | 0xFE => some 1
  | _ => none

/-- `rising_edge(b)` (R85, R131): the count of high samples at the end of a byte of the shape `0^k 1^(8-k)`, `k` in 0 to 7,
and `none` on every other byte. -/
def risingEdge (b : Byte) : Option Nat :=
  match b.toNat with
  | 0x01 => some 1
  | 0x03 => some 2
  | 0x07 => some 3
  | 0x0F => some 4
  | 0x1F => some 5
  | 0x3F => some 6
  | 0x7F => some 7
  | 0xFF => some 8
  | _ => none

/-- The falling-edge byte with `z` low samples at its end, `1^(8-z) 0^z` (R84). -/
def fallByte (z : Nat) : Byte := 0xFF#8 <<< z

/-- The rising-edge byte with `o` high samples at its end, `0^(8-o) 1^o` (R85). -/
def riseByte (o : Nat) : Byte := 0xFF#8 >>> (8 - o)

/-- `sample(b, p) = (b >> p) & 1` (R133): one sample of a capture byte, 0 or 1, position 7 the earliest. -/
def sample (b : Byte) (p : Nat) : Byte := (b >>> p) &&& 1#8

/-- The 12-bit step word `(state << 8) | byte` (R88). -/
def stepWord (st : LineState) (b : Byte) : BitVec 12 := stateCode st ++ b

/-- The state code of a step word, bits 11 to 8 (R88). -/
def wordCode (w : BitVec 12) : BitVec 4 := w.extractLsb' 8 4

/-- The capture byte of a step word, bits 7 to 0 (R88). -/
def wordByte (w : BitVec 12) : Byte := w.extractLsb' 0 8

end Sys2Proof.Machine
end

