-- ==== Sys2Proof/Machine/Constants.lean ====
section
/-! DEFINITION. The named constants of R9, and FULL_FRAME_BREAK_SEED of R10 (D9). The spec's NONE is `Option.none` (D3). -/

namespace Sys2Proof.Machine

/-- SAMPLES_PER_BYTE (R9): what an all-zero or all-one byte adds to `sbc`. -/
abbrev samplesPerByte : Nat := 8

/-- BREAK_THRESHOLD (R9): leave IN_BREAK when `sbc > 165` (R142). -/
abbrev breakThreshold : Nat := 165

/-- MAB_THRESHOLD (R9): abort when the ones-total is `≤ 15` (R148). -/
abbrev mabThreshold : Nat := 15

/-- SC_LOW_EXCL_MIN (R9): accept only when the zeros-total is `> 67` (R162). -/
abbrev scLowExclMin : Nat := 67

/-- SC_LOW_EXCL_MAX (R9): accept only when the zeros-total is `< 77` (R162). -/
abbrev scLowExclMax : Nat := 77

/-- STOP_THRESHOLD (R9): abort when the ones-total is `≤ 15` (R166, R183). -/
abbrev stopThreshold : Nat := 15

/-- EARLY_TERM_MAX (R9): early termination only when `sbc ≤ 11` (R182). -/
abbrev earlyTermMax : Nat := 11

/-- EARLY_BREAK_SEED (R9): `sbc` on entry to IN_BREAK after early termination (R182). -/
abbrev earlyBreakSeed : Nat := 80

/-- MIDPOINT_OFFSET (R9): the sampling offset from the start-bit edge (R171, R172, R174). -/
abbrev midpointOffset : Nat := 4

/-- LAST_DATA_BIT (R9): `sbc == 7` selects the last-data-bit routine (R174). -/
abbrev lastDataBit : Nat := 7

/-- SLOT_COUNT (R9, R52): slots in the sink. -/
abbrev slotCount : Nat := 512

/-- LAST_SLOT (R9): the frame is complete when `cc == 511` (R185). -/
abbrev lastSlot : Int := 511

/-- NO_CHANNEL (R9): `cc` after ChangeState(WAIT_FOR_MAB) (R115). -/
abbrev noChannel : Int := -1

/-- FULL_FRAME_BREAK_SEED (R10, the spec's decision D9): `sbc` on entry to IN_BREAK after slot 511 (R185). -/
abbrev fullFrameBreakSeed : Nat := 0

/-- The `z` that DSP.ALT gives the byte 0x01 (R184, the spec's decision D10). -/
abbrev altEdgeCount : Nat := 7

end Sys2Proof.Machine
end

