-- ==== Sys2Proof/Machine/Operands.lean ====
section
/-! DEFINITION. Operand assembly (R90 to R92): the totals an edge byte forms, the sampling position, the place of a sampled
data bit; and what the two open widths of R10 let a register hold. -/

namespace Sys2Proof.Machine

/-- A count as a register of SBC_WIDTH bits holds it: it sticks at the register's maximum and does not wrap (R10, R105). -/
def saturate (width : Option Nat) (n : Nat) : Nat :=
  match width with
  | none => n
  | some w => min n (2 ^ w - 1)

/-- A cursor of CURSOR_WIDTH bits holds every value from 0 to `size + 1` (R10, D13). -/
def cursorHolds (width : Option Nat) (size : Nat) : Bool :=
  match width with
  | none => true
  | some w => decide (size + 1 < 2 ^ w)

/-- The ones-total of a falling-edge byte in a state that counts ones, `sbc + (8 - z)` (R90). -/
def onesTotal (sbc z : Nat) : Nat := sbc + (samplesPerByte - z)

/-- The zeros-total of a rising-edge byte in a state that counts zeros, `sbc + (8 - o)` (R90). -/
def zerosTotal (sbc o : Nat) : Nat := sbc + (samplesPerByte - o)

/-- The sampling position when the start-bit sample lies in the previous byte, `sbc - 4` (R91, R171). -/
def samplePosPrev (sbc : Nat) : Nat := sbc - midpointOffset

/-- The sampling position when the start-bit sample lies in the current byte, `sbc + 4` (R91, R172). -/
def samplePosCur (sbc : Nat) : Nat := sbc + midpointOffset

/-- `val | (byte[sp] << k)`: data bit `k` ORed into the channel value (R92, R173, R174). -/
def orDataBit (val byte : Byte) (sp k : Nat) : Byte := val ||| (sample byte sp <<< k)

end Sys2Proof.Machine
end

