-- ==== Sys2Proof/Machine/Flags.lean ====
section
/-! DEFINITION. The decoder stores no flag (R29). These are the conditions R29 lists: functions of the current byte and the
registers, computed and used inside one step. -/

namespace Sys2Proof.Machine

/-- The break has passed its threshold: `sbc > 165` (R142). -/
def breakLongEnough (sbc : Nat) : Bool := decide (breakThreshold < sbc)

/-- The mark-after-break is too short: ones-total `≤ 15` (R148). -/
def mabTooShort (total : Nat) : Bool := decide (total ≤ mabThreshold)

/-- The start code's low time lies in the open window `(67, 77)` (R162, C9, D7). -/
def inStartcodeWindow (total : Nat) : Bool := decide (scLowExclMin < total) && decide (total < scLowExclMax)

/-- The stop bits are too short: ones-total `≤ 15` (R166, R183, R184). -/
def stopTooShort (total : Nat) : Bool := decide (total ≤ stopThreshold)

/-- The early-termination condition on the registers, `sbc ≤ 11` and `val == 0` (R182). -/
def earlyTermination (sbc : Nat) (val : Byte) : Bool := decide (sbc ≤ earlyTermMax) && decide (val = 0x00#8)

/-- `sbc ≥ 4` in IN_DATA_STARTBIT: the start-bit sample lies in the previous byte (R171, R172). -/
def startSampleInPrev (sbc : Nat) : Bool := decide (midpointOffset ≤ sbc)

/-- `sp ≥ 4` in the last-data-bit routine: the rest of the byte holds the samples that count (R174). -/
def lateSample (sp : Nat) : Bool := decide (midpointOffset ≤ sp)

/-- The data-region predicate `state ≥ IN_DATA_STARTBIT`, on the codes (R29, R87, R114). -/
def inDataRegion (st : LineState) : Bool := decide ((stateCode .inDataStartbit).toNat ≤ (stateCode st).toNat)

end Sys2Proof.Machine
end

