-- ==== Sys2Proof/Syntax.lean ====
section
/-! DEFINITION. The operations of the decoder: one constructor for each of the 28 operations of spec/opcode_table.json
(R88, R89, R99, R114). An operation with one table row per edge byte carries the detector's result, a catch-all row and the
sampler rows carry the capture byte. -/

namespace Sys2Proof

/-- One operation of the decoder. `z` is the result of `falling_edge` and `o` that of `rising_edge` on the capture byte
(R90); `byte` is the capture byte itself. -/
inductive Instr where
  /-- WFB.FALL (R140). -/
  | wfbFall (z : Nat)
  /-- WFB.SCAN (R141). -/
  | wfbScan (byte : Byte)
  /-- BRK.ZERO (R142). -/
  | brkZero
  /-- BRK.ABORT (R143). -/
  | brkAbort (byte : Byte)
  /-- WFM.HOLD (R144). -/
  | wfmHold
  /-- WFM.RISE (R145). -/
  | wfmRise (o : Nat)
  /-- WFM.ABORT (R146). -/
  | wfmAbort (byte : Byte)
  /-- MAB.ONES (R147). -/
  | mabOnes
  /-- MAB.FALL (R148). -/
  | mabFall (z : Nat)
  /-- MAB.NOISE (R149). -/
  | mabNoise (byte : Byte)
  /-- SC.ZERO (R161). -/
  | scZero
  /-- SC.RISE (R162). -/
  | scRise (o : Nat)
  /-- SC.NOISE (R163). -/
  | scNoise (byte : Byte)
  /-- SCS.ONES (R165). -/
  | scsOnes
  /-- SCS.FALL (R166). -/
  | scsFall (z : Nat)
  /-- SCS.NOISE (R167). -/
  | scsNoise (byte : Byte)
  /-- DSB.PREV (R171). -/
  | dsbPrev (byte : Byte)
  /-- DSB.CUR (R172). -/
  | dsbCur (byte : Byte)
  /-- DB.BIT (R173). -/
  | dbBit (byte : Byte)
  /-- DB.LAST (R174). -/
  | dbLast (byte : Byte)
  /-- DSP.ONES (R181). -/
  | dspOnes
  /-- DSP.EARLY (R182). -/
  | dspEarly
  /-- DSP.FALL (R183). -/
  | dspFall (z : Nat)
  /-- DSP.ALT (R184). -/
  | dspAlt
  /-- DSP.NOISE (R186). -/
  | dspNoise (byte : Byte)
  /-- CONSTRUCT (R110): `Construct(sink, callback)`. `start` is the other request bit, which does not matter (R99). -/
  | construct (start : Bool) (sink : Nat) (callbackPresent : Bool)
  /-- PARSE.BEGIN (R111): `parse(chunk, size)`. -/
  | parseBegin (chunk : Memory) (size : Nat)
  /-- PARSE.END (R114). -/
  | parseEnd
deriving DecidableEq, Repr

end Sys2Proof
end

