-- ==== Sys2Proof/WellFormed.lean ====
section
/-! DEFINITION. Which terms of `Instr` are operations of the table: an edge count lies in 1 to 8 (R84, R85), and the byte of
a catch-all row is one that no earlier row of its state takes (R89). -/

namespace Sys2Proof

open Sys2Proof.Machine

/-- A count an edge detector can return: 1 to 8 (R130, R131). -/
def edgeCount (n : Nat) : Bool := decide (1 ≤ n) && decide (n ≤ 8)

/-- The operands an operation can have, by the tests of R89 that select it. -/
def Instr.wellFormed : Instr → Bool
  | .wfbFall z => edgeCount z
  | .wfbScan b => (fallingEdge b).isNone
  | .brkZero => true
  | .brkAbort b => b != 0x00#8
  | .wfmHold => true
  | .wfmRise o => edgeCount o
  | .wfmAbort b => b != 0x00#8 && (risingEdge b).isNone
  | .mabOnes => true
  | .mabFall z => edgeCount z
  | .mabNoise b => b != 0xFF#8 && (fallingEdge b).isNone
  | .scZero => true
  | .scRise o => edgeCount o
  | .scNoise b => b != 0x00#8 && (risingEdge b).isNone
  | .scsOnes => true
  | .scsFall z => edgeCount z
  | .scsNoise b => b != 0xFF#8 && (fallingEdge b).isNone
  | .dsbPrev _ => true
  | .dsbCur _ => true
  | .dbBit _ => true
  | .dbLast _ => true
  | .dspOnes => true
  | .dspEarly => true
  | .dspFall z => edgeCount z
  | .dspAlt => true
  | .dspNoise b => b != 0xFF#8 && (fallingEdge b).isNone && b != 0x01#8
  | .construct _ _ _ => true
  | .parseBegin _ _ => true
  | .parseEnd => true

end Sys2Proof
end

