-- ==== Sys2Proof/Decode.lean ====
section
/-! DEFINITION. The decoder (R88, R89, R99, R112) and, after it, the encoder. A STEP operation is selected by the 12-bit
step word and, for some rows, by a condition on `sbc` and `val`; a HOST operation by the two request bits; PARSE.END by the
dispatch loop, without a word. -/

namespace Sys2Proof

open Sys2Proof.Machine

/-- What the dispatch loop selects an operation by, one constructor for each `format` of spec/opcode_table.json (R88). -/
inductive FetchWord where
  /-- Format STEP: the step word `(state << 8) | byte`. -/
  | step (w : BitVec 12)
  /-- Format HOST: the request bits `{rst, start}` and the payload (R99). -/
  | host (q : HostRequest)
  /-- Format LOOP: `pc ≥ size`, no word is read (R112, R114). -/
  | loop
deriving DecidableEq, Repr

/-- R89, WAIT_FOR_BREAK. -/
def decodeWaitForBreak (b : Byte) : Instr :=
  match fallingEdge b with
  | some z => .wfbFall z
  | none => .wfbScan b

/-- R89, IN_BREAK. -/
def decodeInBreak (b : Byte) : Instr :=
  if b = 0x00#8 then .brkZero else .brkAbort b

/-- R89, WAIT_FOR_MAB. -/
def decodeWaitForMab (b : Byte) : Instr :=
  if b = 0x00#8 then .wfmHold
  else match risingEdge b with
    | some o => .wfmRise o
    | none => .wfmAbort b

/-- R89, IN_MAB. -/
def decodeInMab (b : Byte) : Instr :=
  if b = 0xFF#8 then .mabOnes
  else match fallingEdge b with
    | some z => .mabFall z
    | none => .mabNoise b

/-- R89, IN_STARTCODE. -/
def decodeInStartcode (b : Byte) : Instr :=
  if b = 0x00#8 then .scZero
  else match risingEdge b with
    | some o => .scRise o
    | none => .scNoise b

/-- R89, IN_STARTCODE_STOPBITS. -/
def decodeInStartcodeStopbits (b : Byte) : Instr :=
  if b = 0xFF#8 then .scsOnes
  else match fallingEdge b with
    | some z => .scsFall z
    | none => .scsNoise b

/-- R89, IN_DATA_STARTBIT: the byte's class plays no part. -/
def decodeInDataStartbit (sbc : Nat) (b : Byte) : Instr :=
  if startSampleInPrev sbc then .dsbPrev b else .dsbCur b

/-- R89, IN_DATA_BITS, dispatched on `sbc` as it stands when the step begins (C11, D24). No row takes `sbc > 7`, which no
run reaches (R33, R88). -/
def decodeInDataBits (sbc : Nat) (b : Byte) : Option Instr :=
  if sbc < lastDataBit then some (.dbBit b)
  else if sbc = lastDataBit then some (.dbLast b)
  else none

/-- R89, IN_DATA_STOPBITS, in the text order of R180 (D29). -/
def decodeInDataStopbits (sbc : Nat) (val b : Byte) : Instr :=
  if b = 0xFF#8 then .dspOnes
  else if b = 0x00#8 ∧ earlyTermination sbc val = true then .dspEarly
  else match fallingEdge b with
    | some z => .dspFall z
    | none => if b = 0x01#8 then .dspAlt else .dspNoise b

/-- The operation map of R89: the operation that a state and a capture byte select, under the register conditions. -/
def decodeByte (sbc : Nat) (val : Byte) (st : LineState) (b : Byte) : Option Instr :=
  match st with
  | .waitForBreak => some (decodeWaitForBreak b)
  | .inBreak => some (decodeInBreak b)
  | .waitForMab => some (decodeWaitForMab b)
  | .inMab => some (decodeInMab b)
  | .inStartcode => some (decodeInStartcode b)
  | .inStartcodeStopbits => some (decodeInStartcodeStopbits b)
  | .inDataStartbit => some (decodeInDataStartbit sbc b)
  | .inDataBits => decodeInDataBits sbc b
  | .inDataStopbits => some (decodeInDataStopbits sbc val b)

/-- A step word; one with a reserved state code matches no row (R88, R94). -/
def decodeStep (sbc : Nat) (val : Byte) (w : BitVec 12) : Option Instr :=
  match stateOfCode (wordCode w) with
  | some st => decodeByte sbc val st (wordByte w)
  | none => none

/-- A host request: `rst` has priority over `start`; with neither set nothing is requested (R99). -/
def decodeHost (q : HostRequest) : Option Instr :=
  if q.rst then some (.construct q.start q.sink q.callbackPresent)
  else if q.start then some (.parseBegin q.chunk q.size)
  else none

/-- The operation the dispatch loop performs, given the registers `sbc` and `val` that some rows test (R88, R112). -/
def decode (sbc : Nat) (val : Byte) : FetchWord → Option Instr
  | .step w => decodeStep sbc val w
  | .host q => decodeHost q
  | .loop => some .parseEnd

/-- The register condition of an operation's table row (`cond` in spec/opcode_table.json, R88); for DSP.FALL on 0x00 the
order of the rows gives it: the DSP.EARLY row stands before (R180, R183). -/
def Instr.enabled (sbc : Nat) (val : Byte) : Instr → Bool
  | .dsbPrev _ => startSampleInPrev sbc
  | .dsbCur _ => !startSampleInPrev sbc
  | .dbBit _ => decide (sbc < lastDataBit)
  | .dbLast _ => decide (sbc = lastDataBit)
  | .dspEarly => earlyTermination sbc val
  | .dspFall z => !(decide (z = 8) && earlyTermination sbc val)
  | _ => true

/-- A host request that carries nothing. -/
def emptyRequest : HostRequest :=
  { rst := false, start := false, sink := 0, callbackPresent := false, chunk := [], size := 0 }

/-- The word of an operation: its state's code and its byte (R88), its request bits and payload (R99), or none (R112). -/
def encode : Instr → FetchWord
  | .wfbFall z => .step (stepWord .waitForBreak (fallByte z))
  | .wfbScan b => .step (stepWord .waitForBreak b)
  | .brkZero => .step (stepWord .inBreak 0x00#8)
  | .brkAbort b => .step (stepWord .inBreak b)
  | .wfmHold => .step (stepWord .waitForMab 0x00#8)
  | .wfmRise o => .step (stepWord .waitForMab (riseByte o))
  | .wfmAbort b => .step (stepWord .waitForMab b)
  | .mabOnes => .step (stepWord .inMab 0xFF#8)
  | .mabFall z => .step (stepWord .inMab (fallByte z))
  | .mabNoise b => .step (stepWord .inMab b)
  | .scZero => .step (stepWord .inStartcode 0x00#8)
  | .scRise o => .step (stepWord .inStartcode (riseByte o))
  | .scNoise b => .step (stepWord .inStartcode b)
  | .scsOnes => .step (stepWord .inStartcodeStopbits 0xFF#8)
  | .scsFall z => .step (stepWord .inStartcodeStopbits (fallByte z))
  | .scsNoise b => .step (stepWord .inStartcodeStopbits b)
  | .dsbPrev b => .step (stepWord .inDataStartbit b)
  | .dsbCur b => .step (stepWord .inDataStartbit b)
  | .dbBit b => .step (stepWord .inDataBits b)
  | .dbLast b => .step (stepWord .inDataBits b)
  | .dspOnes => .step (stepWord .inDataStopbits 0xFF#8)
  | .dspEarly => .step (stepWord .inDataStopbits 0x00#8)
  | .dspFall z => .step (stepWord .inDataStopbits (fallByte z))
  | .dspAlt => .step (stepWord .inDataStopbits 0x01#8)
  | .dspNoise b => .step (stepWord .inDataStopbits b)
  | .construct start sink cb => .host { emptyRequest with rst := true, start := start, sink := sink, callbackPresent := cb }
  | .parseBegin chunk size => .host { emptyRequest with start := true, chunk := chunk, size := size }
  | .parseEnd => .loop

/-- The request whose bits `{rst, start}` are bits 1 and 0 of `w` (R99), its payload all zeros. -/
def requestOfBits (w : Nat) : HostRequest :=
  { emptyRequest with rst := decide (2 ≤ w % 4), start := decide (w % 2 = 1) }

/-- A row of spec/opcode_table.json as bits: at most 8 bits are the HOST word `{rst, start}`, and the word 0, which no HOST
row takes, stands for the LOOP row, whose mask is 0; more bits are a step word (log 9). -/
def tableFetch (nbits w : Nat) : Option FetchWord :=
  if nbits ≤ 8 then
    if w = 0 then some .loop else if w < 4 then some (.host (requestOfBits w)) else none
  else if w < 4096 then some (.step (BitVec.ofNat 12 w)) else none

/-- The operation the decoder reads from a table row's bits, with `sbc` and `val` at their reset values 0 for the rows that
test them (log 9). -/
def decodeTableWord (nbits w : Nat) : Option Instr :=
  match tableFetch nbits w with
  | some f => decode 0 0x00#8 f
  | none => none

end Sys2Proof
end

