-- ==== Sys2Proof/Config.lean ====
section
/-! DEFINITION. What the spec leaves to the model and one definition each fixes: what an unlisted address reads as, and the
values after reset that R35 gives only as "the argument of `Construct`" or "unbound". The thirteen constants of R9 and the
break seed of R10 stand in Machine/Constants.lean. The two parameters R10 leaves open, CURSOR_WIDTH and SBC_WIDTH, are an
argument of the model: `Widths`, which State carries and no step changes (log 2). -/

namespace Sys2Proof.Config

/-- The parameters R10 leaves OPEN (D13). `none` is the unbounded natural number of the rules, `some w` a register of `w`
bits. -/
structure Widths where
  /-- CURSOR_WIDTH: bits of `chunk_bitcount` and of `size`. -/
  cursor : Option Nat
  /-- SBC_WIDTH: bits of `state_bitcount`. -/
  sbc : Option Nat
deriving DecidableEq, Repr

/-- The widths `State.reset` is given: both counters unbounded, as R10 and R12 treat them (log 2). A statement about every
state is one about every width. -/
def resetWidths : Widths := { cursor := none, sbc := none }

/-- What an address no cell lists reads as, in both memories: no value.
DESIGN CHOICE (log 5), safe: a slot nobody wrote holds "whatever the host left there" (R35, R69, U12), which the decoder
never reads. -/
def unlisted : Option Byte := none

/-- The store bound as the sink after reset. DESIGN CHOICE (log 4), unsafe: R35 says "the argument of `Construct`". -/
def resetSinkRef : Nat := 0

/-- Whether a callback is bound after reset. DESIGN CHOICE (log 4), unsafe: R35 says "the argument of `Construct`". -/
def resetCallbackPresent : Bool := false

end Sys2Proof.Config
end

