-- ==== Sys2Proof/Machine/Memory.lean ====
section
/-! DEFINITION. The operations over a memory, a list of (address, byte) cells in canonical form. R51 to R54 of spec/. -/

namespace Sys2Proof.Machine

/-- The canonical form: addresses strictly rising. No cell equals what an unlisted address reads as, since that is no value
(`Config.unlisted`). -/
def Memory.wf : Memory → Bool
  | [] => true
  | [_] => true
  | a :: b :: m => decide (a.1 < b.1) && Memory.wf (b :: m)

/-- The byte at an address. -/
def Memory.read : Memory → Nat → Option Byte
  | [], _ => Config.unlisted
  | c :: m, a => if c.1 = a then some c.2 else Memory.read m a

/-- Every address below `n` has a byte: the chunk is readable over `n` bytes (R236 row 6). -/
def Memory.readableTo (m : Memory) (n : Nat) : Bool :=
  (List.range n).all fun a => (Memory.read m a).isSome

/-- The `n` cells from address `a` up, all holding `v`. -/
def Memory.block (a : Nat) (v : Byte) : Nat → Memory
  | 0 => []
  | n + 1 => (a, v) :: Memory.block (a + 1) v n

/-- `set_range`: addresses `a` to `a + n - 1` hold `v`, every other address what it held (R54). -/
def Memory.fill (m : Memory) (a : Nat) (v : Byte) (n : Nat) : Memory :=
  m.filter (fun c => decide (c.1 < a)) ++ Memory.block a v n ++ m.filter (fun c => decide (a + n ≤ c.1))

/-- `set`: address `a` holds `v`, every other address what it held (R53). -/
def Memory.write (m : Memory) (a : Nat) (v : Byte) : Memory := Memory.fill m a v 1

end Sys2Proof.Machine
end

