-- ==== Sys2Proof/Machine/State.lean ====
section
/-! DEFINITION. The machine's state, what its steps emit and the reasons a step can stop. State is the nine items of R20,
the sink's contents (R52), the output sequence (R8, R98), the `busy` and `frame_done` ports (R100), the requests the host
has pending (R99) and the two open widths (R10). -/

namespace Sys2Proof.Machine

/-- An output event, with the field widths of R98. -/
inductive OutEvent where
  /-- `SinkSet(index, value)`: the sink operation `set` (R53). -/
  | sinkSet (index : BitVec 9) (value : Byte)
  /-- `SinkFill(start, value, length)`: the sink operation `set_range` (R54). -/
  | sinkFill (start : BitVec 9) (value : Byte) (length : BitVec 10)
  /-- `Complete`: the completion signal (R116). -/
  | complete
deriving DecidableEq, Repr

/-- The eleven causes of a loss of lock (R200). They label rules; the machine stores and signals none of them. -/
inductive LockLossCause where
  | brkShort
  | wfmNoise
  | mabShort
  | mabNoedge
  | scWindow
  | scNoedge
  | scsShort
  | scsNoedge
  | dsbStart
  | dspShort
  | dspNoedge
deriving DecidableEq, Repr

/-- The faults. -/
inductive Fault where
  /-- A read of the capture chunk at an offset outside 0 to `size - 1`, where R51 defines no read. Raised by DSB.PREV alone,
  in states no run reaches (`pc = 0`, or `pc > size`). DESIGN CHOICE (log 10), safe: the model stops where the spec gives
  no effect. -/
  | capOutOfRange
deriving DecidableEq, Repr

/-- The refusals: the situations the spec gives no meaning ("refuse", 93_implementation_defined.md). -/
inductive Refusal where
  /-- An operation without a meaning in this model, by its mnemonic. Safe. No arm raises it. -/
  | notModelled (mnemonic : String)
  /-- An offset below `size` that the chunk has no byte for: the host passed a `size` larger than the readable bytes (R236
  row 6, U6). Raised by PARSE.BEGIN, and by the fetch and DSB.PREV in states no run reaches. Safe. -/
  | chunkUnreadable
  /-- A chunk so long that a cursor of CURSOR_WIDTH bits cannot hold `size + 1` (R10, D13, U13). Raised by PARSE.BEGIN.
  Safe. -/
  | chunkTooLong
  /-- No table row matches (R88): the state is IN_DATA_BITS and `sbc > 7`, which R33 excludes. Raised by the step. Safe. -/
  | noOperation
  /-- A sink operation outside slots 0 to 511 (R54, U8). Raised by DSP.EARLY, DSP.FALL and DSP.ALT with `cc` outside -1 to
  510, which R33 excludes. Safe. -/
  | sinkOutOfRange
  /-- A host command while a call is in progress (R235, R236 rows 3 and 4, R241, U1, U5, D28). Raised by CONSTRUCT and
  PARSE.BEGIN; the step never issues them then. Safe. -/
  | commandWhileBusy
deriving DecidableEq, Repr

/-- The whole machine. -/
structure State where
  /-- `state`: the framing machine's state (R21). -/
  state : LineState
  /-- `chunk_bitcount`: the byte offset of the next capture byte (R22). -/
  pc : Nat
  /-- `state_bitcount` (R23). -/
  sbc : Nat
  /-- `sampling_position`, 0 to 7 (R24). -/
  sp : Nat
  /-- `current_dmx_value` (R25). -/
  val : Byte
  /-- `channel_count`, -1 to 511: the last slot written in the frame (R26). -/
  cc : Int
  /-- The `busy` port: a call is in progress and a chunk is bound (R100, R27). -/
  busy : Bool
  /-- The bytes of the bound chunk, by offset (R27, R67). Empty when no chunk is bound. -/
  chunk : Memory
  /-- The length of the bound chunk (R27). Zero when no chunk is bound. -/
  size : Nat
  /-- The store bound as the sink, by its number (R28; log 1). -/
  sinkRef : Nat
  /-- Whether a callback is bound (R28). -/
  callbackPresent : Bool
  /-- The contents of the host's stores: slot `i` of store `r` is at address `512 * r + i` (R52; log 1). -/
  sinks : Memory
  /-- The output events issued so far, oldest first (R8, R98). -/
  outputs : List OutEvent
  /-- The number of callback invocations, the pulses of `frame_done` (R100, R116). -/
  invocations : Nat
  /-- MODEL'S OWN: the host's pending requests, oldest first (R99; log 6). -/
  requests : List HostRequest
  /-- The model's argument for CURSOR_WIDTH and SBC_WIDTH (R10, D13; log 2). No step writes it. -/
  widths : Config.Widths
deriving DecidableEq, Repr

/-- The machine right after `Construct` (R35, R230), with nothing pending. -/
def State.reset : State :=
  { state := .waitForBreak
    pc := 0
    sbc := 0
    sp := 0
    val := 0x00#8
    cc := -1
    busy := false
    chunk := []
    size := 0
    sinkRef := Config.resetSinkRef
    callbackPresent := Config.resetCallbackPresent
    sinks := []
    outputs := []
    invocations := 0
    requests := []
    widths := Config.resetWidths }

end Sys2Proof.Machine
end

