-- ==== Sys2Proof/Machine/Ops.lean ====
section
/-! DEFINITION. The operations the rules share: the accesses to the two memories (R51 to R54), ChangeState (R115), Complete
(R116), LockLoss (R117, R201), the advance of `pc` (R97) and AcceptChannel (R185). Loss of lock is the machine's one
exceptional event; nothing is saved and there is no return from it (R201, R204), so no operation of return stands here. -/

namespace Sys2Proof.Machine

/-- The outcome of a step or of a part of one. -/
abbrev Result := Host.Outcome State Fault Refusal

/-- Go on with `k` if the part before answered a next state. -/
def andThen (o : Result) (k : State → Result) : Result :=
  match o with
  | .next s => k s
  | .fault r => .fault r
  | .refused r => .refused r

/-- ChangeState(st) (R115): the state is set, `sbc` cleared (D4), and `cc` becomes -1 on entry to WAIT_FOR_MAB. -/
def changeState (st : LineState) (s : State) : State :=
  { s with state := st, sbc := 0, cc := if st = .waitForMab then noChannel else s.cc }

/-- "Enter `st` with `sbc = v`": ChangeState(st), then `sbc <- v` (R115). -/
def enterWith (st : LineState) (v : Nat) (s : State) : State :=
  { changeState st s with sbc := v }

/-- `pc <- pc + n` (R97). -/
def advance (n : Nat) (s : State) : State :=
  { s with pc := s.pc + n }

/-- `sbc <- sbc + 8` for an all-zero or all-one byte (R142, R147, R161, R165, R181), the one write of `sbc` without a bound:
it saturates in a register of SBC_WIDTH bits (R105). Every other value written is at most 80. -/
def accumulate (s : State) : State :=
  { s with sbc := saturate s.widths.sbc (s.sbc + samplesPerByte) }

/-- `raise LockLoss(cause)` (R117, R201), the machine's one exception: ChangeState(WAIT_FOR_BREAK) and nothing more. The
cause is not stored. -/
def lockLoss (_cause : LockLossCause) (s : State) : State :=
  changeState .waitForBreak s

/-- Complete() (R116): the event is issued in any case (D15), the callback invoked if one is bound. -/
def complete (s : State) : State :=
  { s with
    outputs := s.outputs ++ [.complete]
    invocations := if s.callbackPresent then s.invocations + 1 else s.invocations }

/-- MemRead(CAP:a, 1) (R51): the byte at offset `a` of the bound chunk, handed to `k`. It is defined for `0 ≤ a < size`
only; below `size` the host owes a readable byte (R236 row 6). -/
def readCap (a : Int) (s : State) (k : Byte → Result) : Result :=
  if 0 ≤ a ∧ a < s.size then
    match Memory.read s.chunk a.toNat with
    | some b => k b
    | none => .refused .chunkUnreadable
  else .fault .capOutOfRange

/-- The address of slot `i` of store `r` (R52; log 1). -/
def slotAddr (r i : Nat) : Nat := slotCount * r + i

/-- The contents of slot `i` of store `r`. The decoder has no operation that reads them (R52). -/
def State.slot (s : State) (r i : Nat) : Option Byte := Memory.read s.sinks (slotAddr r i)

/-- MemWrite(SINK:i, 1, v) (R53): slot `i` of the bound sink is set and the event issued. Outside slots 0 to 511 the spec
refuses (U8). -/
def sinkSet (i : Int) (v : Byte) (s : State) : Result :=
  if 0 ≤ i ∧ i < slotCount then
    .next { s with
      sinks := Memory.write s.sinks (slotAddr s.sinkRef i.toNat) v
      outputs := s.outputs ++ [.sinkSet (BitVec.ofNat 9 i.toNat) v] }
  else .refused .sinkOutOfRange

/-- SinkFill(start, v, n) (R54): slots `start` to `start + n - 1` of the bound sink are set to `v` and the event issued.
A start outside 0 to 511 or a range past slot 511 the spec refuses (U8). -/
def sinkFill (start : Int) (v : Byte) (n : Int) (s : State) : Result :=
  if 0 ≤ start ∧ start < slotCount ∧ 0 ≤ n ∧ start + n ≤ slotCount then
    .next { s with
      sinks := Memory.fill s.sinks (slotAddr s.sinkRef start.toNat) v n.toNat
      outputs := s.outputs ++ [.sinkFill (BitVec.ofNat 9 start.toNat) v (BitVec.ofNat 10 n.toNat)] }
  else .refused .sinkOutOfRange

/-- What AcceptChannel does once the slot is written and counted (R185): after slot 511 the frame is complete and its edge
is taken for a break, otherwise the next slot's start bit follows. -/
def afterAccept (z : Nat) (s : State) : State :=
  if s.cc = lastSlot then enterWith .inBreak fullFrameBreakSeed (complete s)
  else enterWith .inDataStartbit z s

/-- AcceptChannel(z) (R185): write `val` to slot `cc + 1`, count it, and go on. -/
def acceptChannel (z : Nat) (s : State) : Result :=
  andThen (sinkSet (s.cc + 1) s.val s) fun t =>
    .next (afterAccept z { t with cc := t.cc + 1 })

/-- A slot boundary with `z` low samples at its end (R183, R184): with short stop bits a completion and a loss of lock,
otherwise AcceptChannel; `pc` advances by 1 in both. -/
def slotBoundary (z : Nat) (s : State) : Result :=
  if stopTooShort (onesTotal s.sbc z) then .next (advance 1 (lockLoss .dspShort (complete s)))
  else andThen (acceptChannel z s) fun t => .next (advance 1 t)

/-- The end of IN_DATA_STARTBIT (R171, R172): the sampling position is kept; a start bit that reads 1 loses the lock, one
that reads 0 clears `val` and enters IN_DATA_BITS. -/
def checkStartBit (bit : Byte) (p : Nat) (s : State) : State :=
  if bit = 0x01#8 then lockLoss .dsbStart { s with sp := p }
  else changeState .inDataBits { s with sp := p, val := 0x00#8 }

end Sys2Proof.Machine
end

