-- ==== Sys2Proof/Machine/Demux.lean ====
section
/-! DEFINITION. The channel demultiplexer, IN_DATA_STOPBITS: rules R180 to R186. -/

namespace Sys2Proof.Machine

/-- DSP.ONES (R181). -/
def execDspOnes (s : State) : Result :=
  .next (advance 1 (accumulate s))

/-- DSP.EARLY (R182): zero-fill slots `cc + 1` to 511, close the frame, complete, and count on in the break. -/
def execDspEarly (s : State) : Result :=
  andThen (sinkFill (s.cc + 1) 0x00#8 (lastSlot - s.cc) s) fun t =>
    .next (advance 1 (enterWith .inBreak earlyBreakSeed (complete { t with cc := lastSlot })))

/-- DSP.FALL (R183). -/
def execDspFall (z : Nat) (s : State) : Result :=
  slotBoundary z s

/-- DSP.ALT (R184): the byte 0x01 taken for a boundary with `z = 7`. -/
def execDspAlt (s : State) : Result :=
  slotBoundary altEdgeCount s

/-- DSP.NOISE (R186): a completion, then the loss of lock. -/
def execDspNoise (s : State) : Result :=
  .next (advance 1 (lockLoss .dspNoedge (complete s)))

end Sys2Proof.Machine
end

