-- ==== Sys2Proof/Machine/Framing.lean ====
section
/-! DEFINITION. WAIT_FOR_BREAK, IN_BREAK, WAIT_FOR_MAB and IN_MAB: rules R140 to R149. -/

namespace Sys2Proof.Machine

/-- WFB.FALL (R140). -/
def execWfbFall (z : Nat) (s : State) : Result :=
  .next (advance 1 (enterWith .inBreak z s))

/-- WFB.SCAN (R141). -/
def execWfbScan (s : State) : Result :=
  .next (advance 1 s)

/-- BRK.ZERO (R142): the threshold is tested after the add, in the same step (D8). -/
def execBrkZero (s : State) : Result :=
  let t := accumulate s
  .next (advance 1 (if breakLongEnough t.sbc then changeState .waitForMab t else t))

/-- BRK.ABORT (R143). -/
def execBrkAbort (s : State) : Result :=
  .next (advance 1 (lockLoss .brkShort s))

/-- WFM.HOLD (R144). -/
def execWfmHold (s : State) : Result :=
  .next (advance 1 s)

/-- WFM.RISE (R145). -/
def execWfmRise (o : Nat) (s : State) : Result :=
  .next (advance 1 (enterWith .inMab o s))

/-- WFM.ABORT (R146). -/
def execWfmAbort (s : State) : Result :=
  .next (advance 1 (lockLoss .wfmNoise s))

/-- MAB.ONES (R147). -/
def execMabOnes (s : State) : Result :=
  .next (advance 1 (accumulate s))

/-- MAB.FALL (R148). -/
def execMabFall (z : Nat) (s : State) : Result :=
  .next (advance 1 (if mabTooShort (onesTotal s.sbc z) then lockLoss .mabShort s else enterWith .inStartcode z s))

/-- MAB.NOISE (R149). -/
def execMabNoise (s : State) : Result :=
  .next (advance 1 (lockLoss .mabNoedge s))

end Sys2Proof.Machine
end

