-- ==== Sys2Proof/Machine/HostOps.lean ====
section
/-! DEFINITION. The host operations and the end of a call: rules R110, R111, R114. -/

namespace Sys2Proof.Machine

/-- CONSTRUCT (R110, R230): bind the sink and the callback and load the reset values of R35. The sink's contents are not
touched. During a call the spec gives it no meaning (D28). -/
def execConstruct (sink : Nat) (callbackPresent : Bool) (s : State) : Result :=
  if s.busy then .refused .commandWhileBusy
  else .next { s with
    sinkRef := sink
    callbackPresent := callbackPresent
    state := .waitForBreak
    pc := 0
    sbc := 0
    sp := 0
    val := 0x00#8
    cc := noChannel
    chunk := []
    size := 0 }

/-- PARSE.BEGIN (R111): bind the chunk, force WAIT_FOR_BREAK and offset 0; `sp`, `val` and `cc` are not touched. During a
call the spec gives it no meaning (R241), nor for a chunk with fewer readable bytes than `size` (R236 row 6, U6) or longer
than the cursor can index (U13). -/
def execParseBegin (chunk : Memory) (size : Nat) (s : State) : Result :=
  if s.busy then .refused .commandWhileBusy
  else if !cursorHolds s.widths.cursor size then .refused .chunkTooLong
  else if !Memory.readableTo chunk size then .refused .chunkUnreadable
  else .next { s with
    busy := true
    chunk := chunk
    size := size
    pc := 0
    state := .waitForBreak
    sbc := 0 }

/-- PARSE.END (R114): a completion when the loop ended in the data region; the call returns, the chunk is no longer bound
(log 14), the registers keep their values. -/
def execParseEnd (s : State) : Result :=
  let t := if inDataRegion s.state then complete s else s
  .next { t with busy := false, chunk := [], size := 0 }

end Sys2Proof.Machine
end

