-- ==== Sys2Proof/Machine/Sampler.lean ====
section
/-! DEFINITION. The bit sampler, IN_DATA_STARTBIT and IN_DATA_BITS: rules R170 to R174. -/

namespace Sys2Proof.Machine

/-- DSB.PREV (R171): the start bit is read in the previous byte; `pc` is not advanced. -/
def execDsbPrev (s : State) : Result :=
  readCap (s.pc - 1) s fun prev =>
    .next (checkStartBit (sample prev (samplePosPrev s.sbc)) (samplePosPrev s.sbc) s)

/-- DSB.CUR (R172): the start bit is read in the current byte; `pc` advances whether or not it is valid (D11). -/
def execDsbCur (byte : Byte) (s : State) : Result :=
  .next (checkStartBit (sample byte (samplePosCur s.sbc)) (samplePosCur s.sbc) (advance 1 s))

/-- DB.BIT (R173): data bit `sbc`. -/
def execDbBit (byte : Byte) (s : State) : Result :=
  .next (advance 1 { s with val := orDataBit s.val byte s.sp s.sbc, sbc := s.sbc + 1 })

/-- DB.LAST (R174): data bit 7, and the count of the samples after the sample point; with `sp < 4` the next byte is skipped
unread and counts as eight of them. -/
def execDbLast (byte : Byte) (s : State) : Result :=
  let t := { s with val := orDataBit s.val byte s.sp lastDataBit }
  if lateSample s.sp then .next (advance 1 (enterWith .inDataStopbits s.sp t))
  else .next (advance 2 (enterWith .inDataStopbits (s.sp + samplesPerByte) t))

end Sys2Proof.Machine
end

