-- ==== Sys2Proof/Machine/Startcode.lean ====
section
/-! DEFINITION. IN_STARTCODE and IN_STARTCODE_STOPBITS: rules R160 to R167. -/

namespace Sys2Proof.Machine

/-- SC.ZERO (R161). -/
def execScZero (s : State) : Result :=
  .next (advance 1 (accumulate s))

/-- SC.RISE (R162). -/
def execScRise (o : Nat) (s : State) : Result :=
  .next (advance 1 (if inStartcodeWindow (zerosTotal s.sbc o) then enterWith .inStartcodeStopbits o s else lockLoss .scWindow s))

/-- SC.NOISE (R163). -/
def execScNoise (s : State) : Result :=
  .next (advance 1 (lockLoss .scNoedge s))

/-- SCS.ONES (R165). -/
def execScsOnes (s : State) : Result :=
  .next (advance 1 (accumulate s))

/-- SCS.FALL (R166). -/
def execScsFall (z : Nat) (s : State) : Result :=
  .next (advance 1 (if stopTooShort (onesTotal s.sbc z) then lockLoss .scsShort s else enterWith .inDataStartbit z s))

/-- SCS.NOISE (R167). -/
def execScsNoise (s : State) : Result :=
  .next (advance 1 (lockLoss .scsNoedge s))

end Sys2Proof.Machine
end

