-- ==== Sys2Proof/Machine/Dispatch.lean ====
section
/-! DEFINITION. exec: one arm per operation, each one direct call of its meaning. -/

namespace Sys2Proof.Machine

def exec (i : Instr) (s : State) : Host.Outcome State Fault Refusal :=
  match i with
  | .wfbFall z => Sys2Proof.Machine.execWfbFall z s
  | .wfbScan _ => Sys2Proof.Machine.execWfbScan s
  | .brkZero => Sys2Proof.Machine.execBrkZero s
  | .brkAbort _ => Sys2Proof.Machine.execBrkAbort s
  | .wfmHold => Sys2Proof.Machine.execWfmHold s
  | .wfmRise o => Sys2Proof.Machine.execWfmRise o s
  | .wfmAbort _ => Sys2Proof.Machine.execWfmAbort s
  | .mabOnes => Sys2Proof.Machine.execMabOnes s
  | .mabFall z => Sys2Proof.Machine.execMabFall z s
  | .mabNoise _ => Sys2Proof.Machine.execMabNoise s
  | .scZero => Sys2Proof.Machine.execScZero s
  | .scRise o => Sys2Proof.Machine.execScRise o s
  | .scNoise _ => Sys2Proof.Machine.execScNoise s
  | .scsOnes => Sys2Proof.Machine.execScsOnes s
  | .scsFall z => Sys2Proof.Machine.execScsFall z s
  | .scsNoise _ => Sys2Proof.Machine.execScsNoise s
  | .dsbPrev _ => Sys2Proof.Machine.execDsbPrev s
  | .dsbCur byte => Sys2Proof.Machine.execDsbCur byte s
  | .dbBit byte => Sys2Proof.Machine.execDbBit byte s
  | .dbLast byte => Sys2Proof.Machine.execDbLast byte s
  | .dspOnes => Sys2Proof.Machine.execDspOnes s
  | .dspEarly => Sys2Proof.Machine.execDspEarly s
  | .dspFall z => Sys2Proof.Machine.execDspFall z s
  | .dspAlt => Sys2Proof.Machine.execDspAlt s
  | .dspNoise _ => Sys2Proof.Machine.execDspNoise s
  | .construct _ sink callbackPresent => Sys2Proof.Machine.execConstruct sink callbackPresent s
  | .parseBegin chunk size => Sys2Proof.Machine.execParseBegin chunk size s
  | .parseEnd => Sys2Proof.Machine.execParseEnd s

end Sys2Proof.Machine
end

