-- ==== Sys2Proof/Machine/Fetch.lean ====
section
/-! DEFINITION. What the dispatch loop looks at next (R112, R113), and the placing of a table row's bits where it looks. -/

namespace Sys2Proof.Machine

/-- What the fetch finds. -/
inductive Fetched where
  /-- No call is in progress and no request asks for one (R216). -/
  | idle
  /-- A word to decode. -/
  | word (f : FetchWord)
  /-- The chunk has no byte at `pc` although `pc < size` (U6). -/
  | unreadable
deriving DecidableEq, Repr

/-- The dispatch loop (R112): during a call the step word at `pc` while `pc < size`, then the end of the call; between
calls the oldest request of the host. -/
def fetch (s : State) : Fetched :=
  if s.busy then
    if s.pc < s.size then
      match Memory.read s.chunk s.pc with
      | some b => .word (.step (stepWord s.state b))
      | none => .unreadable
    else .word .loop
  else match s.requests with
    | [] => .idle
    | q :: _ => if q.rst || q.start then .word (.host q) else .idle

/-- The state the selected operation works on: between calls the request that was looked at is taken from the list. -/
def taken (s : State) : State :=
  if s.busy then s else { s with requests := s.requests.tail }

/-- A table row's bits placed where the fetch looks: a HOST word at the head of the requests, a step word as the state and
the byte at `pc` of a bound chunk, the LOOP row as a call whose chunk is used up. A step word with a reserved state code
cannot be placed (R94). -/
def placeWord (s : State) (nbits w : Nat) : State :=
  match tableFetch nbits w with
  | some .loop => { s with busy := true, size := 0 }
  | some (.host q) => { s with busy := false, requests := q :: s.requests }
  | some (.step v) =>
    match stateOfCode (wordCode v) with
    | some st =>
      { s with
        busy := true
        state := st
        chunk := Memory.write s.chunk s.pc (wordByte v)
        size := Nat.max s.size (s.pc + 1) }
    | none => s
  | none => s

end Sys2Proof.Machine
end

