-- ==== Sys2Proof/Machine/Step.lean ====
section
/-! DEFINITION. One step of the machine (R112, R113). -/

namespace Sys2Proof.Machine

/-- One step: fetch, decode under the register conditions (R88), perform the operation. Between calls and with nothing
requested the decoder holds its registers (R216). -/
def step (s : State) : Host.Outcome State Fault Refusal :=
  match fetch s with
  | .idle => .next (taken s)
  | .unreadable => .refused .chunkUnreadable
  | .word f =>
    match decode s.sbc s.val f with
    | some i => exec i (taken s)
    | none => .refused .noOperation

/-- The state with a table row's bits where `step` fetches next (log 8). -/
def State.withFetchWord (s : State) (nbits w : Nat) : State := placeWord s nbits w

end Sys2Proof.Machine
end

