-- ==== Sys2Proof/Machine/OpcodeTable.lean ====
section
/-! DEFINITION. The STEP rows of spec/opcode_table.json, in file order, and the decoding procedure R88 gives over them. The
decoder of Sys2Proof/Decode.lean follows the ordered tests of R89 instead; that the two agree is a statement of its own. -/

namespace Sys2Proof.Machine

/-- One row: `match`, `mask`, the condition `cond` on `sbc` and `val`, and the operation it names for a word's byte. -/
structure OpcodeRow where
  mtch : BitVec 12
  mask : BitVec 12
  cond : Nat → Byte → Bool
  build : Byte → Instr

/-- A row without `cond`. -/
def always (_sbc : Nat) (_val : Byte) : Bool := true

/-- `sbc >= 4`. -/
def sbcAtLeast4 (sbc : Nat) (_val : Byte) : Bool := decide (4 ≤ sbc)

/-- `sbc < 4`. -/
def sbcBelow4 (sbc : Nat) (_val : Byte) : Bool := decide (sbc < 4)

/-- `sbc < 7`. -/
def sbcBelow7 (sbc : Nat) (_val : Byte) : Bool := decide (sbc < 7)

/-- `sbc == 7`. -/
def sbcIs7 (sbc : Nat) (_val : Byte) : Bool := decide (sbc = 7)

/-- `sbc <= 11 && val == 0`. -/
def sbcAtMost11ValZero (sbc : Nat) (val : Byte) : Bool := decide (sbc ≤ 11) && decide (val = 0#8)

/-- The rows of state code 0. -/
def rowsWaitForBreak : List OpcodeRow :=
  [ ⟨0x000#12, 0xFFF#12, always, fun _ => .wfbFall 8⟩,
    ⟨0x080#12, 0xFFF#12, always, fun _ => .wfbFall 7⟩,
    ⟨0x0C0#12, 0xFFF#12, always, fun _ => .wfbFall 6⟩,
    ⟨0x0E0#12, 0xFFF#12, always, fun _ => .wfbFall 5⟩,
    ⟨0x0F0#12, 0xFFF#12, always, fun _ => .wfbFall 4⟩,
    ⟨0x0F8#12, 0xFFF#12, always, fun _ => .wfbFall 3⟩,
    ⟨0x0FC#12, 0xFFF#12, always, fun _ => .wfbFall 2⟩,
    ⟨0x0FE#12, 0xFFF#12, always, fun _ => .wfbFall 1⟩,
    ⟨0x000#12, 0xF00#12, always, .wfbScan⟩ ]

/-- The rows of state code 1. -/
def rowsInBreak : List OpcodeRow :=
  [ ⟨0x100#12, 0xFFF#12, always, fun _ => .brkZero⟩,
    ⟨0x100#12, 0xF00#12, always, .brkAbort⟩ ]

/-- The rows of state code 2. -/
def rowsWaitForMab : List OpcodeRow :=
  [ ⟨0x200#12, 0xFFF#12, always, fun _ => .wfmHold⟩,
    ⟨0x201#12, 0xFFF#12, always, fun _ => .wfmRise 1⟩,
    ⟨0x203#12, 0xFFF#12, always, fun _ => .wfmRise 2⟩,
    ⟨0x207#12, 0xFFF#12, always, fun _ => .wfmRise 3⟩,
    ⟨0x20F#12, 0xFFF#12, always, fun _ => .wfmRise 4⟩,
    ⟨0x21F#12, 0xFFF#12, always, fun _ => .wfmRise 5⟩,
    ⟨0x23F#12, 0xFFF#12, always, fun _ => .wfmRise 6⟩,
    ⟨0x27F#12, 0xFFF#12, always, fun _ => .wfmRise 7⟩,
    ⟨0x2FF#12, 0xFFF#12, always, fun _ => .wfmRise 8⟩,
    ⟨0x200#12, 0xF00#12, always, .wfmAbort⟩ ]

/-- The rows of state code 3. -/
def rowsInMab : List OpcodeRow :=
  [ ⟨0x3FF#12, 0xFFF#12, always, fun _ => .mabOnes⟩,
    ⟨0x300#12, 0xFFF#12, always, fun _ => .mabFall 8⟩,
    ⟨0x380#12, 0xFFF#12, always, fun _ => .mabFall 7⟩,
    ⟨0x3C0#12, 0xFFF#12, always, fun _ => .mabFall 6⟩,
    ⟨0x3E0#12, 0xFFF#12, always, fun _ => .mabFall 5⟩,
    ⟨0x3F0#12, 0xFFF#12, always, fun _ => .mabFall 4⟩,
    ⟨0x3F8#12, 0xFFF#12, always, fun _ => .mabFall 3⟩,
    ⟨0x3FC#12, 0xFFF#12, always, fun _ => .mabFall 2⟩,
    ⟨0x3FE#12, 0xFFF#12, always, fun _ => .mabFall 1⟩,
    ⟨0x300#12, 0xF00#12, always, .mabNoise⟩ ]

/-- The rows of state code 4. -/
def rowsInStartcode : List OpcodeRow :=
  [ ⟨0x400#12, 0xFFF#12, always, fun _ => .scZero⟩,
    ⟨0x401#12, 0xFFF#12, always, fun _ => .scRise 1⟩,
    ⟨0x403#12, 0xFFF#12, always, fun _ => .scRise 2⟩,
    ⟨0x407#12, 0xFFF#12, always, fun _ => .scRise 3⟩,
    ⟨0x40F#12, 0xFFF#12, always, fun _ => .scRise 4⟩,
    ⟨0x41F#12, 0xFFF#12, always, fun _ => .scRise 5⟩,
    ⟨0x43F#12, 0xFFF#12, always, fun _ => .scRise 6⟩,
    ⟨0x47F#12, 0xFFF#12, always, fun _ => .scRise 7⟩,
    ⟨0x4FF#12, 0xFFF#12, always, fun _ => .scRise 8⟩,
    ⟨0x400#12, 0xF00#12, always, .scNoise⟩ ]

/-- The rows of state code 5. -/
def rowsInStartcodeStopbits : List OpcodeRow :=
  [ ⟨0x5FF#12, 0xFFF#12, always, fun _ => .scsOnes⟩,
    ⟨0x500#12, 0xFFF#12, always, fun _ => .scsFall 8⟩,
    ⟨0x580#12, 0xFFF#12, always, fun _ => .scsFall 7⟩,
    ⟨0x5C0#12, 0xFFF#12, always, fun _ => .scsFall 6⟩,
    ⟨0x5E0#12, 0xFFF#12, always, fun _ => .scsFall 5⟩,
    ⟨0x5F0#12, 0xFFF#12, always, fun _ => .scsFall 4⟩,
    ⟨0x5F8#12, 0xFFF#12, always, fun _ => .scsFall 3⟩,
    ⟨0x5FC#12, 0xFFF#12, always, fun _ => .scsFall 2⟩,
    ⟨0x5FE#12, 0xFFF#12, always, fun _ => .scsFall 1⟩,
    ⟨0x500#12, 0xF00#12, always, .scsNoise⟩ ]

/-- The rows of state code 6. -/
def rowsInDataStartbit : List OpcodeRow :=
  [ ⟨0x600#12, 0xF00#12, sbcAtLeast4, .dsbPrev⟩,
    ⟨0x600#12, 0xF00#12, sbcBelow4, .dsbCur⟩ ]

/-- The rows of state code 7. -/
def rowsInDataBits : List OpcodeRow :=
  [ ⟨0x700#12, 0xF00#12, sbcBelow7, .dbBit⟩,
    ⟨0x700#12, 0xF00#12, sbcIs7, .dbLast⟩ ]

/-- The rows of state code 8. -/
def rowsInDataStopbits : List OpcodeRow :=
  [ ⟨0x8FF#12, 0xFFF#12, always, fun _ => .dspOnes⟩,
    ⟨0x800#12, 0xFFF#12, sbcAtMost11ValZero, fun _ => .dspEarly⟩,
    ⟨0x800#12, 0xFFF#12, always, fun _ => .dspFall 8⟩,
    ⟨0x880#12, 0xFFF#12, always, fun _ => .dspFall 7⟩,
    ⟨0x8C0#12, 0xFFF#12, always, fun _ => .dspFall 6⟩,
    ⟨0x8E0#12, 0xFFF#12, always, fun _ => .dspFall 5⟩,
    ⟨0x8F0#12, 0xFFF#12, always, fun _ => .dspFall 4⟩,
    ⟨0x8F8#12, 0xFFF#12, always, fun _ => .dspFall 3⟩,
    ⟨0x8FC#12, 0xFFF#12, always, fun _ => .dspFall 2⟩,
    ⟨0x8FE#12, 0xFFF#12, always, fun _ => .dspFall 1⟩,
    ⟨0x801#12, 0xFFF#12, always, fun _ => .dspAlt⟩,
    ⟨0x800#12, 0xF00#12, always, .dspNoise⟩ ]

/-- The 67 STEP rows in file order. -/
def stepRows : List OpcodeRow :=
  rowsWaitForBreak ++ rowsInBreak ++ rowsWaitForMab ++ rowsInMab ++ rowsInStartcode ++
    rowsInStartcodeStopbits ++ rowsInDataStartbit ++ rowsInDataBits ++ rowsInDataStopbits

/-- Whether a row takes a word (R88): `(w & mask) == match`, and its condition holds. -/
def OpcodeRow.takes (r : OpcodeRow) (sbc : Nat) (val : Byte) (w : BitVec 12) : Bool :=
  decide (w &&& r.mask = r.mtch) && r.cond sbc val

/-- The procedure of R88: the first row, in file order, that takes the word. -/
def decodeByTable (sbc : Nat) (val : Byte) (w : BitVec 12) : Option Instr :=
  (stepRows.find? fun r => r.takes sbc val w).map fun r => r.build (wordByte w)

end Sys2Proof.Machine
end

