-- ==== Sys2Proof/Safety.lean ====
section
/-! DEFINITION. Runs of the machine, and the invariant of R23, R26, R33 and R188 in the terms the statements use. -/

namespace Sys2Proof.Machine

/-- `k` steps, stopping at the first fault or refusal. -/
def steps : Nat → State → Result
  | 0, s => .next s
  | k + 1, s => andThen (step s) (steps k)

/-- A call is in progress, the machine is in `st` and the byte it examines next is `b` (R112, R113). -/
def Examines (s : State) (st : LineState) (b : Byte) : Prop :=
  s.busy = true ∧ s.pc < s.size ∧ s.state = st ∧ Memory.read s.chunk s.pc = some b

/-- The next bytes of the chunk are `bs`, and none of them lies past its end. -/
def NextBytes (s : State) (bs : List Byte) : Prop :=
  s.pc + bs.length ≤ s.size ∧ ∀ k b, bs[k]? = some b → Memory.read s.chunk (s.pc + k) = some b

/-- Every offset below `size` has a byte: what the host owes a call (R236 row 6). -/
def Readable (chunk : Memory) (size : Nat) : Prop :=
  ∀ a, a < size → (Memory.read chunk a).isSome = true

/-- A request the host may make: its chunk is in canonical form and readable over `size` bytes (R236 rows 5 and 6). -/
def HostRequest.ok (q : HostRequest) : Prop :=
  Memory.wf q.chunk = true ∧ Readable q.chunk q.size

/-- What R10 asks of a finite SBC_WIDTH: a maximum of at least 166, that is at least 8 bits (R105, D13). -/
def WidthsOk (w : Config.Widths) : Prop :=
  ∀ k, w.sbc = some k → 8 ≤ k

/-- A register of SBC_WIDTH bits that stands at its maximum (R105). -/
def CountFull (s : State) : Prop :=
  ∃ k, s.widths.sbc = some k ∧ s.sbc = 2 ^ k - 1

/-- The formats of R98: a fill is of zeros, not empty, and ends at slot 511 (R33 (g), R54). The index ranges of R98 are in
the widths. -/
def OutEvent.legal : OutEvent → Bool
  | .sinkSet _ _ => true
  | .sinkFill start v n => decide (v = 0x00#8) && decide (1 ≤ n.toNat) && decide (start.toNat + n.toNat = 512)
  | .complete => true

/-- What `sbc` can be in each state (R23, R33 (c), (d), (e)). In IN_DATA_STOPBITS it is the entry value, `sp` or `sp + 8`,
plus a multiple of 8, until a finite register sticks (R105). -/
def CountInRange (s : State) : Prop :=
  match s.state with
  | .waitForBreak => s.sbc = 0
  | .inBreak => s.sbc ≤ 165
  | .waitForMab => s.sbc = 0
  | .inMab => 1 ≤ s.sbc
  | .inStartcode => 1 ≤ s.sbc
  | .inStartcodeStopbits => 1 ≤ s.sbc
  | .inDataStartbit => 1 ≤ s.sbc ∧ s.sbc ≤ 8
  | .inDataBits => s.sbc ≤ 7 ∧ s.val.toNat < 2 ^ s.sbc
  | .inDataStopbits => 4 ≤ s.sbc ∧ (s.sbc % 8 = s.sp ∨ CountFull s)

/-- What `cc` can be in each state (R26, R33 (f), R188): -1 from the end of the break to slot 0, below 511 in the data
region. -/
def ChannelInRange (s : State) : Prop :=
  match s.state with
  | .waitForBreak => -1 ≤ s.cc ∧ s.cc ≤ 511
  | .inBreak => -1 ≤ s.cc ∧ s.cc ≤ 511
  | .waitForMab => s.cc = -1
  | .inMab => s.cc = -1
  | .inStartcode => s.cc = -1
  | .inStartcodeStopbits => s.cc = -1
  | .inDataStartbit => -1 ≤ s.cc ∧ s.cc ≤ 510
  | .inDataBits => -1 ≤ s.cc ∧ s.cc ≤ 510
  | .inDataStopbits => -1 ≤ s.cc ∧ s.cc ≤ 510

/-- The byte before `pc` is the edge byte that began the slot, with `sbc` low samples of the start bit (R170, R171). -/
def EdgeByteBefore (s : State) : Prop :=
  1 ≤ s.pc ∧ s.pc ≤ s.size ∧
    ∃ b, Memory.read s.chunk (s.pc - 1) = some b ∧ (fallingEdge b = some s.sbc ∨ (b = 0x01#8 ∧ s.sbc = 7))

/-- The invariant of the machine with a host that keeps its duties. -/
structure State.Inv (s : State) : Prop where
  /-- R23, R33 (c) to (e). -/
  count : CountInRange s
  /-- R26, R33 (f), R188. -/
  channel : ChannelInRange s
  /-- R24, R32 item 2. -/
  position : s.sp ≤ 7
  /-- R22: `pc` ends a call at `size + 1` at most, and past `size` only in IN_DATA_STOPBITS (R174). -/
  cursor : s.busy = true → s.pc ≤ s.size ∨ (s.pc = s.size + 1 ∧ s.state = .inDataStopbits)
  /-- R33 (b), R170: the look-back of DSB.PREV finds the slot's edge byte. -/
  edge : s.busy = true → s.state = .inDataStartbit → EdgeByteBefore s
  /-- R236 row 6. -/
  readable : Readable s.chunk s.size
  /-- Both memories are in canonical form. -/
  chunkWf : Memory.wf s.chunk = true
  sinksWf : Memory.wf s.sinks = true
  /-- R27: between calls no chunk is bound (log 14). -/
  unbound : s.busy = false → s.chunk = [] ∧ s.size = 0
  /-- R98. -/
  outputs : ∀ e, e ∈ s.outputs → e.legal = true
  /-- R236 rows 5 and 6 and U13, for the requests to come. -/
  requests : ∀ q, q ∈ s.requests → HostRequest.ok q ∧ cursorHolds s.widths.cursor q.size = true
  /-- R10, D13. -/
  widthsOk : WidthsOk s.widths
  /-- R10, R105: a finite count register holds `sbc`. -/
  countHeld : ∀ k, s.widths.sbc = some k → s.sbc < 2 ^ k
  /-- R10, D13: a finite cursor holds `pc`, and `size + 1` of the bound chunk. -/
  cursorHeld : ∀ k, s.widths.cursor = some k → s.pc < 2 ^ k ∧ (s.busy = true → s.size + 1 < 2 ^ k)

end Sys2Proof.Machine
end

