-- ==== Sys2Proof/Certificates/Slice0/Obligations.lean ====
section
/-! DEFINITION. The statements for the provers. A statement about an operation gives its next state outright, for every state
(its frame is the record update: what the update does not name is unchanged), and says when a step performs it. -/

namespace Sys2Proof.Claims

open Sys2Proof.Machine

/-- A sampled bit as it is ORed into the channel value: bit `p` of `b`, at position `k` (R92, R133). -/
def bitAt (b : Byte) (p k : Nat) : Byte := (if b.getLsbD p then 1#8 else 0#8) <<< k

/-- `s` after a loss of lock (R117, R201). -/
def unlocked (s : State) : State := { s with state := .waitForBreak, sbc := 0 }

/-- `s` after the completion signal (R116): the event, and the invocation if a callback is bound. -/
def completed (s : State) : State :=
  { s with
    outputs := s.outputs ++ [.complete]
    invocations := if s.callbackPresent = true then s.invocations + 1 else s.invocations }

/-- `s` after slot `cc + 1` has been set to `val` and counted (R53, R185). -/
def slotWritten (s : State) : State :=
  { s with
    sinks := Memory.write s.sinks (slotAddr s.sinkRef (s.cc + 1).toNat) s.val
    outputs := s.outputs ++ [.sinkSet (BitVec.ofNat 9 (s.cc + 1).toNat) s.val]
    cc := s.cc + 1 }

/-- `s` after a slot boundary with `z` low samples: short stop bits, slot 511, or a slot before it (R183, R184, R185). -/
def boundary (z : Nat) (s : State) : State :=
  if s.sbc + (8 - z) ≤ 15 then { unlocked (completed s) with pc := s.pc + 1 }
  else if s.cc + 1 = 511 then { completed (slotWritten s) with state := .inBreak, sbc := 0, pc := s.pc + 1 }
  else { slotWritten s with state := .inDataStartbit, sbc := z, pc := s.pc + 1 }

/-- `s` after the start-bit test with the bit at position `p` of `b` (R171, R172). -/
def startBitTested (b : Byte) (p : Nat) (s : State) : State :=
  if b.getLsbD p then { s with state := .waitForBreak, sbc := 0, sp := p }
  else { s with state := .inDataBits, sbc := 0, sp := p, val := 0#8 }

/-- The count after eight more samples: without a bound, or stuck at the maximum of a register of SBC_WIDTH bits (R105;
log 2). -/
def eightMore (s : State) : Nat :=
  match s.widths.sbc with
  | none => s.sbc + 8
  | some w => min (s.sbc + 8) (2 ^ w - 1)

/-- The operations a byte selects, as against the host operations and the end of a call. -/
def isStepOp : Instr → Bool
  | .construct _ _ _ => false
  | .parseBegin _ _ => false
  | .parseEnd => false
  | _ => true

/-- The operations that write the sink (R53, R54). -/
def storesToSink : Instr → Bool
  | .dspEarly => true
  | .dspFall _ => true
  | .dspAlt => true
  | _ => false

/-- The operations that write `sp` (R24, R110). -/
def writesSp : Instr → Bool
  | .dsbPrev _ => true
  | .dsbCur _ => true
  | .construct _ _ _ => true
  | _ => false

/-- The operations that write `val` (R25, R110). -/
def writesVal : Instr → Bool
  | .dsbPrev _ => true
  | .dsbCur _ => true
  | .dbBit _ => true
  | .dbLast _ => true
  | .construct _ _ _ => true
  | _ => false

/-- The operations that write `cc` (R26, R110). -/
def writesCc : Instr → Bool
  | .brkZero => true
  | .dspEarly => true
  | .dspFall _ => true
  | .dspAlt => true
  | .construct _ _ _ => true
  | _ => false

/-- The advance of `pc` (R97). -/
def pcAdvance (i : Instr) (s : State) : Nat :=
  match i with
  | .dsbPrev _ => 0
  | .dbLast _ => if 4 ≤ s.sp then 1 else 2
  | _ => 1

/-- The events of a slot boundary with `z` low samples (R183, R184, R185). -/
def boundaryEvents (z : Nat) (s : State) : List OutEvent :=
  if s.sbc + (8 - z) ≤ 15 then [.complete]
  else .sinkSet (BitVec.ofNat 9 (s.cc + 1).toNat) s.val :: (if s.cc + 1 = 511 then [.complete] else [])

/-- The output events of an operation (R121, R205). -/
def eventsOf (i : Instr) (s : State) : List OutEvent :=
  match i with
  | .dspEarly => [.sinkFill (BitVec.ofNat 9 (s.cc + 1).toNat) 0#8 (BitVec.ofNat 10 (511 - s.cc).toNat), .complete]
  | .dspFall z => boundaryEvents z s
  | .dspAlt => boundaryEvents 7 s
  | .dspNoise _ => [.complete]
  | .parseEnd =>
    if s.state = .inDataStartbit ∨ s.state = .inDataBits ∨ s.state = .inDataStopbits then [.complete] else []
  | _ => []

/-- How often the callback was invoked for some events (R116). -/
def invocationsOf (s : State) (es : List OutEvent) : Nat :=
  if s.callbackPresent = true then es.count .complete else 0

/-- The transitions of `state` that a byte can make (R121). -/
def transitions : List (LineState × LineState) :=
  [ (.waitForBreak, .waitForBreak), (.waitForBreak, .inBreak),
    (.inBreak, .inBreak), (.inBreak, .waitForMab), (.inBreak, .waitForBreak),
    (.waitForMab, .waitForMab), (.waitForMab, .inMab), (.waitForMab, .waitForBreak),
    (.inMab, .inMab), (.inMab, .inStartcode), (.inMab, .waitForBreak),
    (.inStartcode, .inStartcode), (.inStartcode, .inStartcodeStopbits), (.inStartcode, .waitForBreak),
    (.inStartcodeStopbits, .inStartcodeStopbits), (.inStartcodeStopbits, .inDataStartbit),
    (.inStartcodeStopbits, .waitForBreak),
    (.inDataStartbit, .inDataBits), (.inDataStartbit, .waitForBreak),
    (.inDataBits, .inDataBits), (.inDataBits, .inDataStopbits),
    (.inDataStopbits, .inDataStopbits), (.inDataStopbits, .inBreak), (.inDataStopbits, .waitForBreak),
    (.inDataStopbits, .inDataStartbit) ]

/-- The capture bytes of SLOT(v) after its start bit, followed by the start bit of what comes next (R104). -/
def slotBytes (v : Byte) : List Byte :=
  ((List.range 8).map fun k => if v.getLsbD k then 0xFF#8 else 0x00#8) ++ [0xFF#8, 0xFF#8, 0x00#8]

/-- `s` in a decoder whose `sbc` register has `w` bits (R10, R105). -/
def narrowed (w : Nat) (s : State) : State :=
  { s with widths := { s.widths with sbc := some w }, sbc := min s.sbc (2 ^ w - 1) }

end Sys2Proof.Claims

open Sys2Proof Sys2Proof.Machine Sys2Proof.Claims

/-! ## Reset, detectors, encodings -/

/-- O1. R35, R230 for `state`, `pc`, `sbc`, `sp`, `val` and `cc`. The rest is the model's choice: that every sink address
reads as no value (log 5; R35 says "whatever the host left there"), the empty events and the zero count (log 11), the unbound
chunk, the sink, the callback, `busy` and `requests` (log 4; R35 says "unbound" or "the argument of `Construct`"), the
unbounded widths (log 2; R10 leaves them open). -/
def Obligations.ResetIsAConstructedDecoder : Prop :=
  State.reset.state = .waitForBreak ∧ State.reset.pc = 0 ∧ State.reset.sbc = 0 ∧ State.reset.sp = 0 ∧
  State.reset.val = 0#8 ∧ State.reset.cc = -1 ∧ (∀ a, Memory.read State.reset.sinks a = none) ∧
  State.reset.outputs = [] ∧ State.reset.invocations = 0 ∧
  State.reset.chunk = [] ∧ State.reset.size = 0 ∧ State.reset.sinkRef = 0 ∧ State.reset.callbackPresent = false ∧
  State.reset.busy = false ∧ State.reset.requests = [] ∧
  State.reset.widths.cursor = none ∧ State.reset.widths.sbc = none

/-- O2. The invariant of R23, R26, R33 holds at reset. -/
def Obligations.ResetMeetsTheInvariant : Prop := State.reset.Inv

/-- O3. R130, R131: the detectors accept exactly the clean edges and return the length of the byte's last level. -/
def Obligations.DetectorsReturnTheCleanEdges : Prop :=
  (∀ (b : Byte) (z : Nat), fallingEdge b = some z ↔ (1 ≤ z ∧ z ≤ 8 ∧ ∀ p, p < 8 → b.getLsbD p = decide (z ≤ p))) ∧
  (∀ (b : Byte) (o : Nat), risingEdge b = some o ↔ (1 ≤ o ∧ o ≤ 8 ∧ ∀ p, p < 8 → b.getLsbD p = decide (p < o)))

/-- O4. R134 (a), (b), (d): no byte is both kinds of edge, a byte with two transitions is neither, and the detectors are each
other's mirror. -/
def Obligations.DetectorsAreDisjointAndMirrored : Prop :=
  (∀ b : Byte, (fallingEdge b).isSome = true → risingEdge b = none) ∧
  (∀ (b : Byte) (p q : Nat), p < q → q < 7 → b.getLsbD p ≠ b.getLsbD (p + 1) → b.getLsbD q ≠ b.getLsbD (q + 1) →
    fallingEdge b = none ∧ risingEdge b = none) ∧
  (∀ b : Byte, fallingEdge b = risingEdge (b ^^^ 0xFF#8))

/-- O5. R133: the sampler reads one bit, position 0 the least significant. -/
def Obligations.SamplerReadsOneBit : Prop :=
  ∀ (b : Byte) (p : Nat), sample b p = if b.getLsbD p then 1#8 else 0#8

/-- O6. R87, R88, R94 (D2): nine codes, and a word with a reserved code selects nothing. -/
def Obligations.ReservedCodesSelectNothing : Prop :=
  (∀ st : LineState, (stateCode st).toNat ≤ 8 ∧ stateOfCode (stateCode st) = some st) ∧
  (∀ (sbc : Nat) (val : Byte) (w : BitVec 12), 9 ≤ w.toNat / 256 → decodeStep sbc val w = none)

/-- O7. One word of each state, written out from R87, R88 and R89, and the two host words of R99. -/
def Obligations.WrittenWordsDecode : Prop :=
  decodeStep 0 0#8 0b000011100000#12 = some (.wfbFall 5) ∧
  decodeStep 0 0#8 0b000100000000#12 = some .brkZero ∧
  decodeStep 0 0#8 0b001000111111#12 = some (.wfmRise 6) ∧
  decodeStep 0 0#8 0b001111110111#12 = some (.mabNoise 0xF7#8) ∧
  decodeStep 0 0#8 0b010000000001#12 = some (.scRise 1) ∧
  decodeStep 0 0#8 0b010111111111#12 = some .scsOnes ∧
  decodeStep 4 0#8 0b011000111100#12 = some (.dsbPrev 0x3C#8) ∧
  decodeStep 7 0#8 0b011110100101#12 = some (.dbLast 0xA5#8) ∧
  decodeStep 11 0#8 0b100000000000#12 = some .dspEarly ∧
  decodeStep 12 0#8 0b100000000000#12 = some (.dspFall 8) ∧
  decodeStep 11 0#8 0b100000000001#12 = some .dspAlt ∧
  decodeTableWord 2 0b01 = some (.parseBegin [] 0) ∧
  decodeTableWord 2 0b10 = some (.construct false 0 false) ∧
  decodeTableWord 2 0b11 = some (.construct true 0 false)

/-- O8. R112, R113, R99: what a step performs. Requests waiting in a list are the model's choice (log 6). -/
def Obligations.StepRunsTheSelectedOperation : Prop :=
  (∀ (s : State) (st : LineState) (b : Byte) (i : Instr), Examines s st b →
    decode s.sbc s.val (.step (stepWord st b)) = some i → step s = exec i s) ∧
  (∀ s : State, s.busy = true → s.size ≤ s.pc → step s = exec .parseEnd s) ∧
  (∀ (s : State) (q : HostRequest) (rest : List HostRequest), s.busy = false → s.requests = q :: rest → q.rst = true →
    step s = exec (.construct q.start q.sink q.callbackPresent) { s with requests := rest }) ∧
  (∀ (s : State) (q : HostRequest) (rest : List HostRequest), s.busy = false → s.requests = q :: rest →
    q.rst = false → q.start = true → step s = exec (.parseBegin q.chunk q.size) { s with requests := rest }) ∧
  (∀ (s : State) (q : HostRequest) (rest : List HostRequest), s.busy = false → s.requests = q :: rest →
    q.rst = false → q.start = false → step s = .next { s with requests := rest }) ∧
  (∀ s : State, s.busy = false → s.requests = [] → step s = .next s)

/-! ## The operations -/

/-- O9. R140. -/
def Obligations.WfbFallEntersTheBreak : Prop :=
  ∀ (s : State) (z : Nat),
    exec (.wfbFall z) s = .next { s with state := .inBreak, sbc := z, pc := s.pc + 1 } ∧
    ∀ b, Examines s .waitForBreak b → fallingEdge b = some z →
      step s = .next { s with state := .inBreak, sbc := z, pc := s.pc + 1 }

/-- O10. R141, R144. -/
def Obligations.ScanAndHoldOnlyAdvance : Prop :=
  ∀ s : State,
    (∀ b, exec (.wfbScan b) s = .next { s with pc := s.pc + 1 }) ∧
    exec .wfmHold s = .next { s with pc := s.pc + 1 } ∧
    (∀ b, Examines s .waitForBreak b → fallingEdge b = none → step s = .next { s with pc := s.pc + 1 }) ∧
    (Examines s .waitForMab 0x00#8 → step s = .next { s with pc := s.pc + 1 })

/-- O11. R142, and R105 for a finite count; that it sticks at `2 ^ w - 1` is the model's choice (log 2). -/
def Obligations.BrkZeroCountsTheBreak : Prop :=
  ∀ s : State,
    (eightMore s ≤ 165 → exec .brkZero s = .next { s with sbc := eightMore s, pc := s.pc + 1 }) ∧
    (165 < eightMore s → exec .brkZero s = .next { s with state := .waitForMab, sbc := 0, cc := -1, pc := s.pc + 1 }) ∧
    (Examines s .inBreak 0x00#8 → step s = exec .brkZero s)

/-- O12. R143, R146, R149, R163, R167. -/
def Obligations.NoiseLosesTheLockInFraming : Prop :=
  ∀ (s : State) (b : Byte),
    exec (.brkAbort b) s = .next { unlocked s with pc := s.pc + 1 } ∧
    exec (.wfmAbort b) s = .next { unlocked s with pc := s.pc + 1 } ∧
    exec (.mabNoise b) s = .next { unlocked s with pc := s.pc + 1 } ∧
    exec (.scNoise b) s = .next { unlocked s with pc := s.pc + 1 } ∧
    exec (.scsNoise b) s = .next { unlocked s with pc := s.pc + 1 } ∧
    ((Examines s .inBreak b ∧ b ≠ 0x00#8) ∨
      (Examines s .waitForMab b ∧ b ≠ 0x00#8 ∧ risingEdge b = none) ∨
      (Examines s .inMab b ∧ b ≠ 0xFF#8 ∧ fallingEdge b = none) ∨
      (Examines s .inStartcode b ∧ b ≠ 0x00#8 ∧ risingEdge b = none) ∨
      (Examines s .inStartcodeStopbits b ∧ b ≠ 0xFF#8 ∧ fallingEdge b = none) →
      step s = .next { unlocked s with pc := s.pc + 1 })

/-- O13. R145. -/
def Obligations.WfmRiseEntersTheMab : Prop :=
  ∀ (s : State) (o : Nat),
    exec (.wfmRise o) s = .next { s with state := .inMab, sbc := o, pc := s.pc + 1 } ∧
    ∀ b, Examines s .waitForMab b → risingEdge b = some o →
      step s = .next { s with state := .inMab, sbc := o, pc := s.pc + 1 }

/-- O14. R147, R161, R165, R181, and R105 for a finite count; that it sticks at `2 ^ w - 1` is the model's choice (log 2). -/
def Obligations.LevelBytesAddEightSamples : Prop :=
  ∀ s : State,
    exec .mabOnes s = .next { s with sbc := eightMore s, pc := s.pc + 1 } ∧
    exec .scZero s = .next { s with sbc := eightMore s, pc := s.pc + 1 } ∧
    exec .scsOnes s = .next { s with sbc := eightMore s, pc := s.pc + 1 } ∧
    exec .dspOnes s = .next { s with sbc := eightMore s, pc := s.pc + 1 } ∧
    (Examines s .inMab 0xFF#8 ∨ Examines s .inStartcode 0x00#8 ∨ Examines s .inStartcodeStopbits 0xFF#8 ∨
      Examines s .inDataStopbits 0xFF#8 → step s = .next { s with sbc := eightMore s, pc := s.pc + 1 })

/-- O15. R148. -/
def Obligations.MabFallTestsTheMab : Prop :=
  ∀ (s : State) (z : Nat),
    (s.sbc + (8 - z) ≤ 15 → exec (.mabFall z) s = .next { unlocked s with pc := s.pc + 1 }) ∧
    (15 < s.sbc + (8 - z) →
      exec (.mabFall z) s = .next { s with state := .inStartcode, sbc := z, pc := s.pc + 1 }) ∧
    ∀ b, Examines s .inMab b → fallingEdge b = some z → step s = exec (.mabFall z) s

/-- O16. R162. -/
def Obligations.ScRiseTestsTheWindow : Prop :=
  ∀ (s : State) (o : Nat),
    (67 < s.sbc + (8 - o) ∧ s.sbc + (8 - o) < 77 →
      exec (.scRise o) s = .next { s with state := .inStartcodeStopbits, sbc := o, pc := s.pc + 1 }) ∧
    (s.sbc + (8 - o) ≤ 67 ∨ 77 ≤ s.sbc + (8 - o) → exec (.scRise o) s = .next { unlocked s with pc := s.pc + 1 }) ∧
    ∀ b, Examines s .inStartcode b → risingEdge b = some o → step s = exec (.scRise o) s

/-- O17. R166. -/
def Obligations.ScsFallTestsTheStopBits : Prop :=
  ∀ (s : State) (z : Nat),
    (s.sbc + (8 - z) ≤ 15 → exec (.scsFall z) s = .next { unlocked s with pc := s.pc + 1 }) ∧
    (15 < s.sbc + (8 - z) →
      exec (.scsFall z) s = .next { s with state := .inDataStartbit, sbc := z, pc := s.pc + 1 }) ∧
    ∀ b, Examines s .inStartcodeStopbits b → fallingEdge b = some z → step s = exec (.scsFall z) s

/-- O18. R171. -/
def Obligations.DsbPrevTestsThePreviousByte : Prop :=
  ∀ (s : State) (b prev : Byte), 1 ≤ s.pc → s.pc ≤ s.size → Memory.read s.chunk (s.pc - 1) = some prev →
    exec (.dsbPrev b) s = .next (startBitTested prev (s.sbc - 4) s) ∧
    (Examines s .inDataStartbit b → 4 ≤ s.sbc → step s = .next (startBitTested prev (s.sbc - 4) s))

/-- O19. R172. -/
def Obligations.DsbCurTestsTheCurrentByte : Prop :=
  ∀ (s : State) (b : Byte),
    exec (.dsbCur b) s = .next (startBitTested b (s.sbc + 4) { s with pc := s.pc + 1 }) ∧
    (Examines s .inDataStartbit b → s.sbc < 4 →
      step s = .next (startBitTested b (s.sbc + 4) { s with pc := s.pc + 1 }))

/-- O20. R173. -/
def Obligations.DbBitOrsInOneBit : Prop :=
  ∀ (s : State) (b : Byte),
    exec (.dbBit b) s =
      .next { s with val := s.val ||| bitAt b s.sp s.sbc, sbc := s.sbc + 1, pc := s.pc + 1 } ∧
    (Examines s .inDataBits b → s.sbc < 7 →
      step s = .next { s with val := s.val ||| bitAt b s.sp s.sbc, sbc := s.sbc + 1, pc := s.pc + 1 })

/-- O21. R174. -/
def Obligations.DbLastSeedsTheStopBits : Prop :=
  ∀ (s : State) (b : Byte),
    (4 ≤ s.sp → exec (.dbLast b) s =
      .next { s with val := s.val ||| bitAt b s.sp 7, state := .inDataStopbits, sbc := s.sp, pc := s.pc + 1 }) ∧
    (s.sp < 4 → exec (.dbLast b) s =
      .next { s with val := s.val ||| bitAt b s.sp 7, state := .inDataStopbits, sbc := s.sp + 8, pc := s.pc + 2 }) ∧
    (Examines s .inDataBits b → s.sbc = 7 → step s = exec (.dbLast b) s)

/-- O22. R182. -/
def Obligations.DspEarlyFillsAndCloses : Prop :=
  ∀ s : State, -1 ≤ s.cc → s.cc ≤ 510 →
    exec .dspEarly s = .next { completed { s with
      sinks := Memory.fill s.sinks (slotAddr s.sinkRef (s.cc + 1).toNat) 0#8 (511 - s.cc).toNat
      outputs := s.outputs ++
        [.sinkFill (BitVec.ofNat 9 (s.cc + 1).toNat) 0#8 (BitVec.ofNat 10 (511 - s.cc).toNat)] } with
      cc := 511, state := .inBreak, sbc := 80, pc := s.pc + 1 } ∧
    (Examines s .inDataStopbits 0x00#8 → s.sbc ≤ 11 → s.val = 0#8 → step s = exec .dspEarly s)

/-- O23. R183, R185. -/
def Obligations.DspFallAcceptsOrAborts : Prop :=
  ∀ (s : State) (z : Nat), -1 ≤ s.cc → s.cc ≤ 510 →
    exec (.dspFall z) s = .next (boundary z s) ∧
    ∀ b, Examines s .inDataStopbits b → fallingEdge b = some z → ¬(b = 0x00#8 ∧ s.sbc ≤ 11 ∧ s.val = 0#8) →
      step s = .next (boundary z s)

/-- O24. R184, R185. -/
def Obligations.DspAltIsABoundaryOfSeven : Prop :=
  ∀ s : State, -1 ≤ s.cc → s.cc ≤ 510 →
    exec .dspAlt s = .next (boundary 7 s) ∧
    (Examines s .inDataStopbits 0x01#8 → step s = .next (boundary 7 s))

/-- O25. R186. -/
def Obligations.DspNoiseCompletesAndAborts : Prop :=
  ∀ (s : State) (b : Byte),
    exec (.dspNoise b) s = .next { unlocked (completed s) with pc := s.pc + 1 } ∧
    (Examines s .inDataStopbits b → b ≠ 0xFF#8 → fallingEdge b = none → b ≠ 0x01#8 →
      step s = .next { unlocked (completed s) with pc := s.pc + 1 })

/-- O26. R110. What becomes of `chunk` and `size` is the model's choice (log 14) and is left out. -/
def Obligations.ConstructBindsAndResets : Prop :=
  ∀ (s : State) (start cb : Bool) (sink : Nat), s.busy = false →
    ∃ t, exec (.construct start sink cb) s = .next t ∧
      t.sinkRef = sink ∧ t.callbackPresent = cb ∧
      t.state = .waitForBreak ∧ t.pc = 0 ∧ t.sbc = 0 ∧ t.sp = 0 ∧ t.val = 0#8 ∧ t.cc = -1 ∧
      t.busy = false ∧ (∀ a, Memory.read t.sinks a = Memory.read s.sinks a) ∧
      t.outputs = s.outputs ∧ t.invocations = s.invocations ∧ t.requests = s.requests ∧ t.widths = s.widths

/-- O27. R111: for "a readable buffer of `size` bytes" that the cursor can index. -/
def Obligations.ParseBeginStartsACall : Prop :=
  ∀ (s : State) (chunk : Memory) (size : Nat), s.busy = false → Readable chunk size →
    cursorHolds s.widths.cursor size = true →
    exec (.parseBegin chunk size) s =
      .next { s with busy := true, chunk := chunk, size := size, pc := 0, state := .waitForBreak, sbc := 0 }

/-- O28. R114. What becomes of `chunk` and `size` is the model's choice (log 14) and is left out. -/
def Obligations.ParseEndCompletesInTheDataRegion : Prop :=
  ∀ s : State, ∃ t, exec .parseEnd s = .next t ∧ t.busy = false ∧
    t.outputs = s.outputs ++ eventsOf .parseEnd s ∧
    t.invocations = s.invocations + invocationsOf s (eventsOf .parseEnd s) ∧
    t.state = s.state ∧ t.pc = s.pc ∧ t.sbc = s.sbc ∧ t.sp = s.sp ∧ t.val = s.val ∧ t.cc = s.cc ∧
    t.sinkRef = s.sinkRef ∧ t.callbackPresent = s.callbackPresent ∧
    (∀ a, Memory.read t.sinks a = Memory.read s.sinks a) ∧ t.requests = s.requests ∧ t.widths = s.widths ∧
    (s.busy = true → s.size ≤ s.pc → step s = .next t)

/-- O29. The model's choice where the spec refuses (log 7). -/
def Obligations.HostCommandsAreRefusedDuringACall : Prop :=
  ∀ (s : State) (start cb : Bool) (sink size : Nat) (chunk : Memory), s.busy = true →
    exec (.construct start sink cb) s = .refused .commandWhileBusy ∧
    exec (.parseBegin chunk size) s = .refused .commandWhileBusy

/-- O30. The model's choice where the spec gives no access (log 10). -/
def Obligations.AccessesOutsideTheMemoriesStop : Prop :=
  (∀ (s : State) (b : Byte), s.pc = 0 ∨ s.size < s.pc → exec (.dsbPrev b) s = .fault .capOutOfRange) ∧
  (∀ s : State, s.cc < -1 ∨ 510 < s.cc → exec .dspEarly s = .refused .sinkOutOfRange) ∧
  (∀ (s : State) (z : Nat), s.cc < -1 ∨ 510 < s.cc → 15 < s.sbc + (8 - z) →
    exec (.dspFall z) s = .refused .sinkOutOfRange) ∧
  (∀ s : State, s.cc < -1 ∨ 510 < s.cc → 15 < s.sbc + 1 → exec .dspAlt s = .refused .sinkOutOfRange)

/-! ## Encoding -/

/-- O31. R88, R89, R99: an operation is read back from its word, in the registers that select it. -/
def Obligations.DecodeOfEncodeIsTheOperation : Prop :=
  ∀ (i : Instr) (sbc : Nat) (val : Byte), i.wellFormed = true → i.enabled sbc val = true →
    decode sbc val (encode i) = some i

/-- O32. R88: the operation a step word selects is well formed, enabled and encodes to that word. -/
def Obligations.EncodeOfDecodeIsTheWord : Prop :=
  ∀ (sbc : Nat) (val : Byte) (w : BitVec 12) (i : Instr), decodeStep sbc val w = some i →
    i.wellFormed = true ∧ i.enabled sbc val = true ∧ encode i = .step w

/-- O33. R88: the first row of the table that takes a word names what the ordered tests of R89 select. -/
def Obligations.TableOrderAgreesWithTheOrderedTests : Prop :=
  ∀ (sbc : Nat) (val : Byte) (w : BitVec 12), decodeByTable sbc val w = decodeStep sbc val w

/-! ## Invariants of the machine -/

/-- O34. R23, R24, R26, R33, R98, R188: the invariant is kept by every step. -/
def Obligations.EveryStepKeepsTheInvariant : Prop :=
  ∀ s t : State, s.Inv → step s = .next t → t.Inv

/-- O35. R113: from a state that meets the invariant no step faults or is refused. -/
def Obligations.NoStepStopsUnderTheInvariant : Prop :=
  ∀ s : State, s.Inv → ∃ t, step s = .next t

/-- O36. R171: the look-back always finds a valid start bit. -/
def Obligations.LookBackFindsAValidStartBit : Prop :=
  ∀ (s : State) (b : Byte), s.Inv → Examines s .inDataStartbit b → 4 ≤ s.sbc →
    step s = .next { s with state := .inDataBits, sbc := 0, sp := s.sbc - 4, val := 0#8 }

/-- O37. R26, R32 items 1 and 6, R188: `cc` never falls but to -1, on entry to WAIT_FOR_MAB. -/
def Obligations.ChannelCountOnlyFallsAtTheBreak : Prop :=
  ∀ (s t : State) (st : LineState) (b : Byte), Examines s st b → step s = .next t →
    (s.cc ≤ t.cc ∨ (st = .inBreak ∧ t.state = .waitForMab)) ∧
    (st ≠ .waitForMab → t.state = .waitForMab → t.cc = -1)

/-! ## Frames and whole-machine rules -/

/-- O38. R10, R27, R28, R34, R67: an operation that a byte selects changes no binding, not the chunk, not the host's requests
and not the widths. -/
def Obligations.StepOperationsKeepTheBindings : Prop :=
  ∀ (i : Instr) (s t : State), isStepOp i = true → exec i s = .next t →
    t.chunk = s.chunk ∧ t.size = s.size ∧ t.busy = s.busy ∧ t.sinkRef = s.sinkRef ∧
    t.callbackPresent = s.callbackPresent ∧ t.requests = s.requests ∧ t.widths = s.widths

/-- O39. R69, R110, R114: an operation that stores nothing leaves every byte of the sinks. -/
def Obligations.NonStoringOperationsKeepTheSink : Prop :=
  ∀ (i : Instr) (s t : State), storesToSink i = false → exec i s = .next t →
    ∀ a, Memory.read t.sinks a = Memory.read s.sinks a

/-- O40. R53, R69, R185: a slot boundary writes slot `cc + 1` of the bound sink or nothing, and no other byte of any store. -/
def Obligations.SlotBoundaryWritesOneSlot : Prop :=
  ∀ (i : Instr) (z : Nat) (s t : State), i = .dspFall z ∨ (i = .dspAlt ∧ z = 7) → exec i s = .next t →
    (∀ a, a ≠ slotAddr s.sinkRef (s.cc + 1).toNat → Memory.read t.sinks a = Memory.read s.sinks a) ∧
    (s.sbc + (8 - z) ≤ 15 → ∀ a, Memory.read t.sinks a = Memory.read s.sinks a) ∧
    (15 < s.sbc + (8 - z) → t.slot s.sinkRef (s.cc + 1).toNat = some s.val) ∧
    (∀ r k, k < 512 → r ≠ s.sinkRef ∨ k ≠ (s.cc + 1).toNat → t.slot r k = s.slot r k)

/-- O41. R54, R69, R182: early termination clears slots `cc + 1` to 511 of the bound sink and no other byte of any store. -/
def Obligations.EarlyTerminationClearsTheRest : Prop :=
  ∀ s t : State, exec .dspEarly s = .next t →
    (∀ a, slotAddr s.sinkRef (s.cc + 1).toNat ≤ a → a < slotAddr s.sinkRef 512 → Memory.read t.sinks a = some 0#8) ∧
    (∀ a, a < slotAddr s.sinkRef (s.cc + 1).toNat ∨ slotAddr s.sinkRef 512 ≤ a →
      Memory.read t.sinks a = Memory.read s.sinks a) ∧
    (∀ r k, k < 512 → t.slot r k = if r = s.sinkRef ∧ s.cc < (k : Int) then some 0#8 else s.slot r k)

/-- O42. R24, R25, R26: the only writers of `sp`, `val` and `cc`. -/
def Obligations.OnlyTheNamedOperationsWriteTheRegisters : Prop :=
  ∀ (i : Instr) (s t : State), exec i s = .next t →
    (writesSp i = false → t.sp = s.sp) ∧ (writesVal i = false → t.val = s.val) ∧ (writesCc i = false → t.cc = s.cc)

/-- O43. R97. -/
def Obligations.PcAdvancesByTheTable : Prop :=
  ∀ (i : Instr) (s t : State), isStepOp i = true → exec i s = .next t → t.pc = s.pc + pcAdvance i s

/-- O44. R8, R98, R116, R205: the events of every operation, and the callback's invocations. -/
def Obligations.EventsAreThoseOfTheOperation : Prop :=
  ∀ (i : Instr) (s t : State), exec i s = .next t →
    t.outputs = s.outputs ++ eventsOf i s ∧ t.invocations = s.invocations + invocationsOf s (eventsOf i s)

/-- O45. R206: a step completes at most once, and then leaves the data region. -/
def Obligations.ACompletionLeavesTheDataRegion : Prop :=
  ∀ (s t : State) (st : LineState) (b : Byte), Examines s st b → step s = .next t →
    ∃ es, t.outputs = s.outputs ++ es ∧ es.count .complete ≤ 1 ∧
      (OutEvent.complete ∈ es → st = .inDataStopbits ∧ (t.state = .waitForBreak ∨ t.state = .inBreak))

/-- O46. R121: the transitions a byte can make. -/
def Obligations.OnlyTheTransitionsOfTheTable : Prop :=
  ∀ (s t : State) (st : LineState) (b : Byte), Examines s st b → step s = .next t → (st, t.state) ∈ transitions

/-- O47. R200, R201, R202: what every loss of lock leaves: the count is cleared, the value and the slot count are kept, the
sinks are untouched, the byte is consumed except by the look-back, and a completion comes from IN_DATA_STOPBITS alone. -/
def Obligations.LossOfLockKeepsTheRegisters : Prop :=
  ∀ (s t : State) (st : LineState) (b : Byte), Examines s st b → st ≠ .waitForBreak → step s = .next t →
    t.state = .waitForBreak →
    t.sbc = 0 ∧ t.val = s.val ∧ t.cc = s.cc ∧ t.sinks = s.sinks ∧
    (st ≠ .inDataStartbit → t.sp = s.sp) ∧
    t.pc = s.pc + (if st = .inDataStartbit ∧ 4 ≤ s.sbc then 0 else 1) ∧
    t.outputs = s.outputs ++ (if st = .inDataStopbits then [.complete] else [])

/-- O48. R187: early termination is possible on the first byte of the stop bits alone. -/
def Obligations.EarlyTerminationNeedsTheFirstByte : Prop :=
  ∀ (s t : State), s.Inv → Examines s .inDataStopbits 0xFF#8 → step s = .next t →
    t.state = .inDataStopbits ∧ 12 ≤ t.sbc ∧ ∀ b, decodeByte t.sbc t.val t.state b ≠ some .dspEarly

/-! ## Runs -/

/-- O49. R141: any number of bytes without a clean falling edge is passed over in WAIT_FOR_BREAK. -/
def Obligations.ScanningPassesOverAnyLine : Prop :=
  ∀ (s : State) (bs : List Byte), s.busy = true → s.state = .waitForBreak → NextBytes s bs →
    (∀ b, b ∈ bs → fallingEdge b = none) → steps bs.length s = .next { s with pc := s.pc + bs.length }

/-- O50. R142, R144: a run of `n` zero bytes in IN_BREAK stays below the threshold, or ends in WAIT_FOR_MAB. -/
def Obligations.ZeroBytesMeasureTheBreak : Prop :=
  ∀ (s : State) (n : Nat), WidthsOk s.widths → s.busy = true → s.state = .inBreak → s.sbc ≤ 165 →
    NextBytes s (List.replicate n 0x00#8) →
    (s.sbc + 8 * n ≤ 165 → steps n s = .next { s with sbc := s.sbc + 8 * n, pc := s.pc + n }) ∧
    (165 < s.sbc + 8 * n →
      steps n s = .next { s with state := .waitForMab, sbc := 0, cc := -1, pc := s.pc + n })

/-- O51. R56, R92: eight bytes assemble the channel value, least significant bit first, one sample each. -/
def Obligations.EightBytesAssembleTheValue : Prop :=
  ∀ (s : State) (bs : List Byte), s.busy = true → s.state = .inDataBits → s.sbc = 0 → s.val = 0#8 →
    bs.length = 8 → NextBytes s bs →
    ∃ v : Byte, steps 8 s = .next { s with
        val := v
        state := .inDataStopbits
        sbc := if 4 ≤ s.sp then s.sp else s.sp + 8
        pc := if 4 ≤ s.sp then s.pc + 8 else s.pc + 9 } ∧
      ∀ (k : Nat) (b : Byte), bs[k]? = some b → v.getLsbD k = b.getLsbD s.sp

/-- O52. R104, R175, R185: a byte-aligned slot of any value is written and the machine stands before the next one. -/
def Obligations.AnAlignedSlotIsWritten : Prop :=
  ∀ (s : State) (v : Byte), WidthsOk s.widths → s.busy = true → s.state = .inDataStartbit → s.sbc = 8 → 1 ≤ s.pc →
    Memory.read s.chunk (s.pc - 1) = some 0x00#8 → NextBytes s (slotBytes v) → -1 ≤ s.cc → s.cc ≤ 509 →
    steps 12 s = .next { slotWritten { s with val := v } with sp := 4, pc := s.pc + 11 }

/-- O53. R188, R189, R190: consecutive byte-aligned slots go to consecutive slots of the sink. -/
def Obligations.ConsecutiveSlotsFillTheSink : Prop :=
  ∀ (s : State) (vs : List Byte), WidthsOk s.widths → s.busy = true → s.state = .inDataStartbit → s.sbc = 8 → 1 ≤ s.pc →
    Memory.read s.chunk (s.pc - 1) = some 0x00#8 → NextBytes s (vs.flatMap slotBytes) → -1 ≤ s.cc →
    s.cc + vs.length ≤ 510 →
    ∃ t, steps (12 * vs.length) s = .next t ∧ t.state = .inDataStartbit ∧ t.cc = s.cc + vs.length ∧
      t.pc = s.pc + 11 * vs.length ∧
      t.outputs = s.outputs ++
        vs.mapIdx (fun k v => OutEvent.sinkSet (BitVec.ofNat 9 (s.cc + 1 + (k : Int)).toNat) v) ∧
      (∀ (k : Nat) (v : Byte), vs[k]? = some v → t.slot s.sinkRef (s.cc + 1 + (k : Int)).toNat = some v) ∧
      (∀ a, a < slotAddr s.sinkRef (s.cc + 1).toNat ∨ slotAddr s.sinkRef (s.cc + 1).toNat + vs.length ≤ a →
        Memory.read t.sinks a = Memory.read s.sinks a)

/-- O54. R118: a call with an empty chunk has no effect but on `state`, `pc` and `sbc`. The bindings of the chunk end with the
call (log 14). -/
def Obligations.AnEmptyCallIsSilent : Prop :=
  ∀ (s : State) (q : HostRequest) (rest : List HostRequest), s.busy = false → s.requests = q :: rest →
    q.rst = false → q.start = true → q.size = 0 → cursorHolds s.widths.cursor 0 = true →
    steps 2 s = .next { s with state := .waitForBreak, pc := 0, sbc := 0, chunk := [], size := 0, requests := rest }

/-- O55. R112: a call ends, after at most two steps for each byte that is left. -/
def Obligations.EveryCallEndsInTime : Prop :=
  ∀ s : State, s.Inv → s.busy = true →
    ∃ k t, k ≤ 2 * (s.size - s.pc) ∧ steps k s = .next t ∧ t.busy = true ∧ t.chunk = s.chunk ∧ t.size = s.size ∧
      t.size ≤ t.pc ∧ t.pc ≤ t.size + 1

/-- O56. R119: what a decoder in WAIT_FOR_BREAK puts out does not depend on its other registers, its bindings or the sinks. -/
def Obligations.OutputsDoNotDependOnEarlierCalls : Prop :=
  ∀ (s u : State) (k : Nat) (t : State), s.state = .waitForBreak → u.state = .waitForBreak → u.pc = s.pc →
    u.busy = s.busy → u.chunk = s.chunk → u.size = s.size → u.requests = s.requests → u.widths = s.widths →
    steps k s = .next t →
    ∃ t' es, steps k u = .next t' ∧ t'.state = t.state ∧ t'.pc = t.pc ∧
      t.outputs = s.outputs ++ es ∧ t'.outputs = u.outputs ++ es

/-- O57. R105, D13: a decoder whose `sbc` has any legal SBC_WIDTH gives the same run as the unbounded one. That it
sticks at `2 ^ w - 1` is the model's choice (log 2). -/
def Obligations.ASaturatingCountGivesTheSameRun : Prop :=
  ∀ (w k : Nat) (s t : State), 8 ≤ w → s.widths.sbc = none → s.Inv → steps k s = .next t →
    steps k (narrowed w s) = .next (narrowed w t)

/-- O58. The model's choice where the spec refuses (log 13): a chunk with no byte at `pc`, and IN_DATA_BITS with a count
above 7. -/
def Obligations.StepRefusesWhatTheSpecRefuses : Prop :=
  (∀ s : State, s.busy = true → s.pc < s.size → Memory.read s.chunk s.pc = none →
    step s = .refused .chunkUnreadable) ∧
  (∀ (s : State) (b : Byte), Examines s .inDataBits b → 7 < s.sbc → step s = .refused .noOperation)

/-- O59. The model's choice where the spec refuses (log 18): between calls a chunk with fewer readable bytes than `size`, or
one longer than the cursor can index, starts no call. -/
def Obligations.UnfitChunksStartNoCall : Prop :=
  ∀ (s : State) (chunk : Memory) (size : Nat), s.busy = false →
    (cursorHolds s.widths.cursor size = true → ¬Readable chunk size →
      exec (.parseBegin chunk size) s = .refused .chunkUnreadable) ∧
    (∀ w, s.widths.cursor = some w → 2 ^ w ≤ size + 1 → exec (.parseBegin chunk size) s = .refused .chunkTooLong)
end

