-- ==== Sys2Proof/Laws/Memory.lean ====
section
/-! SUPPORT. The laws of the memory operations: reading after a write or a fill, and that both keep the canonical form. -/

namespace Sys2Proof.Machine

/-- The bounded check of readability says what it should (R236 row 6). -/
theorem Memory.readableTo_iff (m : Memory) (n : Nat) :
    Memory.readableTo m n = true ↔ ∀ a, a < n → (Memory.read m a).isSome = true := by
  simp [Memory.readableTo]

theorem Memory.read_append (m n : Memory) (a : Nat) :
    Memory.read (m ++ n) a = if a ∈ m.map Prod.fst then Memory.read m a else Memory.read n a := by
  induction m with
  | nil => simp
  | cons c m ih =>
    by_cases h : c.1 = a
    · simp [Memory.read, h]
    · simp [Memory.read, h, ih, Ne.symm h]

theorem Memory.read_of_not_mem (m : Memory) (a : Nat) (h : a ∉ m.map Prod.fst) :
    Memory.read m a = Config.unlisted := by
  induction m with
  | nil => rfl
  | cons c m ih =>
    simp only [List.map_cons, List.mem_cons, not_or] at h
    simp [Memory.read, Ne.symm h.1, ih h.2]

theorem Memory.read_filter (m : Memory) (p : Nat → Bool) (a : Nat) (h : p a = true) :
    Memory.read (m.filter fun c => p c.1) a = Memory.read m a := by
  induction m with
  | nil => rfl
  | cons c m ih =>
    by_cases ha : c.1 = a
    · have hp : p c.1 = true := by rw [ha]; exact h
      simp [Memory.read, ha, h]
    · by_cases hp : p c.1 = true
      · simp [Memory.read, ha, hp, ih]
      · simp [Memory.read, ha, hp, ih]

theorem Memory.mem_filter_keys (m : Memory) (p : Nat → Bool) (a : Nat) :
    a ∈ (m.filter fun c => p c.1).map Prod.fst ↔ a ∈ m.map Prod.fst ∧ p a = true := by
  simp only [List.mem_map, List.mem_filter]
  constructor
  · rintro ⟨c, ⟨hc, hp⟩, rfl⟩; exact ⟨⟨c, hc, rfl⟩, hp⟩
  · rintro ⟨⟨c, hc, rfl⟩, hp⟩; exact ⟨c, ⟨hc, hp⟩, rfl⟩

theorem Memory.mem_block_keys (a : Nat) (v : Byte) (n b : Nat) :
    b ∈ (Memory.block a v n).map Prod.fst ↔ a ≤ b ∧ b < a + n := by
  induction n generalizing a with
  | zero => simp [Memory.block]
  | succ n ih => simp only [Memory.block, List.map_cons, List.mem_cons, ih]; omega

theorem Memory.read_block (a : Nat) (v : Byte) (n b : Nat) :
    Memory.read (Memory.block a v n) b = if a ≤ b ∧ b < a + n then some v else Config.unlisted := by
  induction n generalizing a with
  | zero =>
    have h : ¬(a ≤ b ∧ b < a + 0) := by omega
    simp only [Memory.block, Memory.read, h, if_false]
  | succ n ih =>
    simp only [Memory.block, Memory.read, ih]
    by_cases h : a = b
    · subst h; simp
    · have h2 : (a + 1 ≤ b ∧ b < a + 1 + n) ↔ (a ≤ b ∧ b < a + (n + 1)) := by omega
      simp only [h, if_false, h2]

/-- R54: a fill sets the addresses of its range and leaves every other as it was. -/
theorem Memory.read_fill (m : Memory) (a : Nat) (v : Byte) (n b : Nat) :
    Memory.read (Memory.fill m a v n) b = if a ≤ b ∧ b < a + n then some v else Memory.read m b := by
  have lo := fun x => Memory.mem_filter_keys m (fun k => decide (k < a)) x
  have hi := fun x => Memory.mem_filter_keys m (fun k => decide (a + n ≤ k)) x
  simp only [Memory.fill, List.append_assoc, Memory.read_append, lo, Memory.mem_block_keys, decide_eq_true_eq]
  by_cases h1 : b < a
  · have h2 : ¬(a ≤ b ∧ b < a + n) := by omega
    have h3 : decide (b < a) = true := by simp [h1]
    by_cases hm : b ∈ m.map Prod.fst
    · simp only [hm, h1, and_self, if_true, h2, if_false]
      exact Memory.read_filter m (fun k => decide (k < a)) b h3
    · have hz : b ∉ (m.filter fun c => decide (a + n ≤ c.1)).map Prod.fst := by rw [hi]; exact fun h => hm h.1
      simp only [hm, false_and, if_false, h2, Memory.read_of_not_mem _ _ hz, Memory.read_of_not_mem _ _ hm]
  · by_cases h2 : a ≤ b ∧ b < a + n
    · simp [h1, h2, Memory.read_block]
    · have h3 : decide (a + n ≤ b) = true := by simp only [decide_eq_true_eq]; omega
      simp only [h1, and_false, if_false, h2]
      exact Memory.read_filter m (fun k => decide (a + n ≤ k)) b h3

/-- R53: a write sets its address and leaves every other as it was. -/
theorem Memory.read_write (m : Memory) (a : Nat) (v : Byte) (b : Nat) :
    Memory.read (Memory.write m a v) b = if b = a then some v else Memory.read m b := by
  rw [Memory.write, Memory.read_fill]
  by_cases h : b = a
  · subst h; simp
  · have h2 : ¬(a ≤ b ∧ b < a + 1) := by omega
    rw [if_neg h2, if_neg h]

/-- The canonical form as strictly rising keys. -/
theorem Memory.wf_iff_pairwise (m : Memory) : Memory.wf m = true ↔ m.Pairwise fun c d => c.1 < d.1 := by
  induction m with
  | nil => simp [Memory.wf]
  | cons c m ih =>
    cases m with
    | nil => simp [Memory.wf]
    | cons d m =>
      simp only [Memory.wf, Bool.and_eq_true, decide_eq_true_eq, ih, List.pairwise_cons, List.mem_cons,
        forall_eq_or_imp]
      constructor
      · rintro ⟨h, h1, h2⟩
        exact ⟨⟨h, fun e he => lt_trans h (h1 e he)⟩, h1, h2⟩
      · rintro ⟨⟨h, _⟩, h1, h2⟩
        exact ⟨h, h1, h2⟩

theorem Memory.mem_block_bounds {a : Nat} {v : Byte} {n : Nat} {c : Host.Cell} (h : c ∈ Memory.block a v n) :
    a ≤ c.1 ∧ c.1 < a + n :=
  (Memory.mem_block_keys a v n c.1).1 (List.mem_map_of_mem h)

theorem Memory.block_pairwise (a : Nat) (v : Byte) (n : Nat) :
    (Memory.block a v n).Pairwise fun c d => c.1 < d.1 := by
  induction n generalizing a with
  | zero => simp [Memory.block]
  | succ n ih =>
    simp only [Memory.block, List.pairwise_cons, ih, and_true]
    intro d hd
    have := Memory.mem_block_bounds hd
    omega

/-- A fill keeps the canonical form. -/
theorem Memory.fill_keeps_wf (m : Memory) (a : Nat) (v : Byte) (n : Nat) (h : Memory.wf m = true) :
    Memory.wf (Memory.fill m a v n) = true := by
  rw [Memory.wf_iff_pairwise] at h ⊢
  simp only [Memory.fill, List.pairwise_append, List.mem_append, List.mem_filter, decide_eq_true_eq]
  refine ⟨⟨h.filter _, Memory.block_pairwise a v n, fun c hc d hd => ?_⟩, h.filter _, fun c hc d hd => ?_⟩
  · have := Memory.mem_block_bounds hd; omega
  · rcases hc with hc | hc
    · omega
    · have := Memory.mem_block_bounds hc; omega

/-- A write keeps the canonical form. -/
theorem Memory.write_keeps_wf (m : Memory) (a : Nat) (v : Byte) (h : Memory.wf m = true) :
    Memory.wf (Memory.write m a v) = true :=
  Memory.fill_keeps_wf m a v 1 h

end Sys2Proof.Machine
end

