-- ==== Sys2Proof/Laws/State.lean ====
section
/-! SUPPORT. What each update of the state does to each field, so that no proof unfolds a record update. -/

namespace Sys2Proof.Machine

/-! ChangeState (R115): `state`, `sbc` and, on entry to WAIT_FOR_MAB, `cc`. -/

@[simp] theorem changeState_state (st : LineState) (s : State) : (changeState st s).state = st := rfl
@[simp] theorem changeState_pc (st : LineState) (s : State) : (changeState st s).pc = s.pc := rfl
@[simp] theorem changeState_sbc (st : LineState) (s : State) : (changeState st s).sbc = 0 := rfl
@[simp] theorem changeState_sp (st : LineState) (s : State) : (changeState st s).sp = s.sp := rfl
@[simp] theorem changeState_val (st : LineState) (s : State) : (changeState st s).val = s.val := rfl
@[simp] theorem changeState_cc (st : LineState) (s : State) : (changeState st s).cc = if st = .waitForMab then noChannel else s.cc := rfl
@[simp] theorem changeState_busy (st : LineState) (s : State) : (changeState st s).busy = s.busy := rfl
@[simp] theorem changeState_chunk (st : LineState) (s : State) : (changeState st s).chunk = s.chunk := rfl
@[simp] theorem changeState_size (st : LineState) (s : State) : (changeState st s).size = s.size := rfl
@[simp] theorem changeState_sinkRef (st : LineState) (s : State) : (changeState st s).sinkRef = s.sinkRef := rfl
@[simp] theorem changeState_callbackPresent (st : LineState) (s : State) : (changeState st s).callbackPresent = s.callbackPresent := rfl
@[simp] theorem changeState_sinks (st : LineState) (s : State) : (changeState st s).sinks = s.sinks := rfl
@[simp] theorem changeState_outputs (st : LineState) (s : State) : (changeState st s).outputs = s.outputs := rfl
@[simp] theorem changeState_invocations (st : LineState) (s : State) : (changeState st s).invocations = s.invocations := rfl
@[simp] theorem changeState_requests (st : LineState) (s : State) : (changeState st s).requests = s.requests := rfl
@[simp] theorem changeState_widths (st : LineState) (s : State) : (changeState st s).widths = s.widths := rfl

/-! Entering a state with a seed (R115). -/

@[simp] theorem enterWith_state (st : LineState) (v : Nat) (s : State) : (enterWith st v s).state = st := rfl
@[simp] theorem enterWith_pc (st : LineState) (v : Nat) (s : State) : (enterWith st v s).pc = s.pc := rfl
@[simp] theorem enterWith_sbc (st : LineState) (v : Nat) (s : State) : (enterWith st v s).sbc = v := rfl
@[simp] theorem enterWith_sp (st : LineState) (v : Nat) (s : State) : (enterWith st v s).sp = s.sp := rfl
@[simp] theorem enterWith_val (st : LineState) (v : Nat) (s : State) : (enterWith st v s).val = s.val := rfl
@[simp] theorem enterWith_cc (st : LineState) (v : Nat) (s : State) : (enterWith st v s).cc = if st = .waitForMab then noChannel else s.cc := rfl
@[simp] theorem enterWith_busy (st : LineState) (v : Nat) (s : State) : (enterWith st v s).busy = s.busy := rfl
@[simp] theorem enterWith_chunk (st : LineState) (v : Nat) (s : State) : (enterWith st v s).chunk = s.chunk := rfl
@[simp] theorem enterWith_size (st : LineState) (v : Nat) (s : State) : (enterWith st v s).size = s.size := rfl
@[simp] theorem enterWith_sinkRef (st : LineState) (v : Nat) (s : State) : (enterWith st v s).sinkRef = s.sinkRef := rfl
@[simp] theorem enterWith_callbackPresent (st : LineState) (v : Nat) (s : State) : (enterWith st v s).callbackPresent = s.callbackPresent := rfl
@[simp] theorem enterWith_sinks (st : LineState) (v : Nat) (s : State) : (enterWith st v s).sinks = s.sinks := rfl
@[simp] theorem enterWith_outputs (st : LineState) (v : Nat) (s : State) : (enterWith st v s).outputs = s.outputs := rfl
@[simp] theorem enterWith_invocations (st : LineState) (v : Nat) (s : State) : (enterWith st v s).invocations = s.invocations := rfl
@[simp] theorem enterWith_requests (st : LineState) (v : Nat) (s : State) : (enterWith st v s).requests = s.requests := rfl
@[simp] theorem enterWith_widths (st : LineState) (v : Nat) (s : State) : (enterWith st v s).widths = s.widths := rfl

/-! The advance of `pc` (R97). -/

@[simp] theorem advance_state (n : Nat) (s : State) : (advance n s).state = s.state := rfl
@[simp] theorem advance_pc (n : Nat) (s : State) : (advance n s).pc = s.pc + n := rfl
@[simp] theorem advance_sbc (n : Nat) (s : State) : (advance n s).sbc = s.sbc := rfl
@[simp] theorem advance_sp (n : Nat) (s : State) : (advance n s).sp = s.sp := rfl
@[simp] theorem advance_val (n : Nat) (s : State) : (advance n s).val = s.val := rfl
@[simp] theorem advance_cc (n : Nat) (s : State) : (advance n s).cc = s.cc := rfl
@[simp] theorem advance_busy (n : Nat) (s : State) : (advance n s).busy = s.busy := rfl
@[simp] theorem advance_chunk (n : Nat) (s : State) : (advance n s).chunk = s.chunk := rfl
@[simp] theorem advance_size (n : Nat) (s : State) : (advance n s).size = s.size := rfl
@[simp] theorem advance_sinkRef (n : Nat) (s : State) : (advance n s).sinkRef = s.sinkRef := rfl
@[simp] theorem advance_callbackPresent (n : Nat) (s : State) : (advance n s).callbackPresent = s.callbackPresent := rfl
@[simp] theorem advance_sinks (n : Nat) (s : State) : (advance n s).sinks = s.sinks := rfl
@[simp] theorem advance_outputs (n : Nat) (s : State) : (advance n s).outputs = s.outputs := rfl
@[simp] theorem advance_invocations (n : Nat) (s : State) : (advance n s).invocations = s.invocations := rfl
@[simp] theorem advance_requests (n : Nat) (s : State) : (advance n s).requests = s.requests := rfl
@[simp] theorem advance_widths (n : Nat) (s : State) : (advance n s).widths = s.widths := rfl

/-! Counting eight samples. -/

@[simp] theorem accumulate_state (s : State) : (accumulate s).state = s.state := rfl
@[simp] theorem accumulate_pc (s : State) : (accumulate s).pc = s.pc := rfl
@[simp] theorem accumulate_sbc (s : State) : (accumulate s).sbc = saturate s.widths.sbc (s.sbc + 8) := rfl
@[simp] theorem accumulate_sp (s : State) : (accumulate s).sp = s.sp := rfl
@[simp] theorem accumulate_val (s : State) : (accumulate s).val = s.val := rfl
@[simp] theorem accumulate_cc (s : State) : (accumulate s).cc = s.cc := rfl
@[simp] theorem accumulate_busy (s : State) : (accumulate s).busy = s.busy := rfl
@[simp] theorem accumulate_chunk (s : State) : (accumulate s).chunk = s.chunk := rfl
@[simp] theorem accumulate_size (s : State) : (accumulate s).size = s.size := rfl
@[simp] theorem accumulate_sinkRef (s : State) : (accumulate s).sinkRef = s.sinkRef := rfl
@[simp] theorem accumulate_callbackPresent (s : State) : (accumulate s).callbackPresent = s.callbackPresent := rfl
@[simp] theorem accumulate_sinks (s : State) : (accumulate s).sinks = s.sinks := rfl
@[simp] theorem accumulate_outputs (s : State) : (accumulate s).outputs = s.outputs := rfl
@[simp] theorem accumulate_invocations (s : State) : (accumulate s).invocations = s.invocations := rfl
@[simp] theorem accumulate_requests (s : State) : (accumulate s).requests = s.requests := rfl
@[simp] theorem accumulate_widths (s : State) : (accumulate s).widths = s.widths := rfl

/-! Loss of lock (R117, R201). -/

@[simp] theorem lockLoss_state (c : LockLossCause) (s : State) : (lockLoss c s).state = .waitForBreak := rfl
@[simp] theorem lockLoss_pc (c : LockLossCause) (s : State) : (lockLoss c s).pc = s.pc := rfl
@[simp] theorem lockLoss_sbc (c : LockLossCause) (s : State) : (lockLoss c s).sbc = 0 := rfl
@[simp] theorem lockLoss_sp (c : LockLossCause) (s : State) : (lockLoss c s).sp = s.sp := rfl
@[simp] theorem lockLoss_val (c : LockLossCause) (s : State) : (lockLoss c s).val = s.val := rfl
@[simp] theorem lockLoss_cc (c : LockLossCause) (s : State) : (lockLoss c s).cc = s.cc := rfl
@[simp] theorem lockLoss_busy (c : LockLossCause) (s : State) : (lockLoss c s).busy = s.busy := rfl
@[simp] theorem lockLoss_chunk (c : LockLossCause) (s : State) : (lockLoss c s).chunk = s.chunk := rfl
@[simp] theorem lockLoss_size (c : LockLossCause) (s : State) : (lockLoss c s).size = s.size := rfl
@[simp] theorem lockLoss_sinkRef (c : LockLossCause) (s : State) : (lockLoss c s).sinkRef = s.sinkRef := rfl
@[simp] theorem lockLoss_callbackPresent (c : LockLossCause) (s : State) : (lockLoss c s).callbackPresent = s.callbackPresent := rfl
@[simp] theorem lockLoss_sinks (c : LockLossCause) (s : State) : (lockLoss c s).sinks = s.sinks := rfl
@[simp] theorem lockLoss_outputs (c : LockLossCause) (s : State) : (lockLoss c s).outputs = s.outputs := rfl
@[simp] theorem lockLoss_invocations (c : LockLossCause) (s : State) : (lockLoss c s).invocations = s.invocations := rfl
@[simp] theorem lockLoss_requests (c : LockLossCause) (s : State) : (lockLoss c s).requests = s.requests := rfl
@[simp] theorem lockLoss_widths (c : LockLossCause) (s : State) : (lockLoss c s).widths = s.widths := rfl

/-! Complete (R116). -/

@[simp] theorem complete_state (s : State) : (complete s).state = s.state := rfl
@[simp] theorem complete_pc (s : State) : (complete s).pc = s.pc := rfl
@[simp] theorem complete_sbc (s : State) : (complete s).sbc = s.sbc := rfl
@[simp] theorem complete_sp (s : State) : (complete s).sp = s.sp := rfl
@[simp] theorem complete_val (s : State) : (complete s).val = s.val := rfl
@[simp] theorem complete_cc (s : State) : (complete s).cc = s.cc := rfl
@[simp] theorem complete_busy (s : State) : (complete s).busy = s.busy := rfl
@[simp] theorem complete_chunk (s : State) : (complete s).chunk = s.chunk := rfl
@[simp] theorem complete_size (s : State) : (complete s).size = s.size := rfl
@[simp] theorem complete_sinkRef (s : State) : (complete s).sinkRef = s.sinkRef := rfl
@[simp] theorem complete_callbackPresent (s : State) : (complete s).callbackPresent = s.callbackPresent := rfl
@[simp] theorem complete_sinks (s : State) : (complete s).sinks = s.sinks := rfl
@[simp] theorem complete_outputs (s : State) : (complete s).outputs = s.outputs ++ [.complete] := rfl
@[simp] theorem complete_invocations (s : State) : (complete s).invocations = if s.callbackPresent then s.invocations + 1 else s.invocations := rfl
@[simp] theorem complete_requests (s : State) : (complete s).requests = s.requests := rfl
@[simp] theorem complete_widths (s : State) : (complete s).widths = s.widths := rfl

/-! Taking the request that was looked at (R99): `requests` and nothing else. -/

@[simp] theorem taken_state (s : State) : (taken s).state = s.state := by unfold taken; split <;> rfl
@[simp] theorem taken_pc (s : State) : (taken s).pc = s.pc := by unfold taken; split <;> rfl
@[simp] theorem taken_sbc (s : State) : (taken s).sbc = s.sbc := by unfold taken; split <;> rfl
@[simp] theorem taken_sp (s : State) : (taken s).sp = s.sp := by unfold taken; split <;> rfl
@[simp] theorem taken_val (s : State) : (taken s).val = s.val := by unfold taken; split <;> rfl
@[simp] theorem taken_cc (s : State) : (taken s).cc = s.cc := by unfold taken; split <;> rfl
@[simp] theorem taken_busy (s : State) : (taken s).busy = s.busy := by unfold taken; split <;> rfl
@[simp] theorem taken_chunk (s : State) : (taken s).chunk = s.chunk := by unfold taken; split <;> rfl
@[simp] theorem taken_size (s : State) : (taken s).size = s.size := by unfold taken; split <;> rfl
@[simp] theorem taken_sinkRef (s : State) : (taken s).sinkRef = s.sinkRef := by unfold taken; split <;> rfl
@[simp] theorem taken_callbackPresent (s : State) : (taken s).callbackPresent = s.callbackPresent := by unfold taken; split <;> rfl
@[simp] theorem taken_sinks (s : State) : (taken s).sinks = s.sinks := by unfold taken; split <;> rfl
@[simp] theorem taken_outputs (s : State) : (taken s).outputs = s.outputs := by unfold taken; split <;> rfl
@[simp] theorem taken_invocations (s : State) : (taken s).invocations = s.invocations := by unfold taken; split <;> rfl
@[simp] theorem taken_widths (s : State) : (taken s).widths = s.widths := by unfold taken; split <;> rfl
theorem taken_of_busy (s : State) (h : s.busy = true) : taken s = s := by simp [taken, h]
theorem taken_of_idle (s : State) (h : s.busy = false) : taken s = { s with requests := s.requests.tail } := by
  simp [taken, h]

/-! The named constants of R9 and R10 as numerals. -/

theorem samplesPerByte_eq : samplesPerByte = 8 := rfl
theorem breakThreshold_eq : breakThreshold = 165 := rfl
theorem mabThreshold_eq : mabThreshold = 15 := rfl
theorem scLowExclMin_eq : scLowExclMin = 67 := rfl
theorem scLowExclMax_eq : scLowExclMax = 77 := rfl
theorem stopThreshold_eq : stopThreshold = 15 := rfl
theorem earlyTermMax_eq : earlyTermMax = 11 := rfl
theorem earlyBreakSeed_eq : earlyBreakSeed = 80 := rfl
theorem midpointOffset_eq : midpointOffset = 4 := rfl
theorem lastDataBit_eq : lastDataBit = 7 := rfl
theorem slotCount_eq : slotCount = 512 := rfl
theorem lastSlot_eq : lastSlot = 511 := rfl
theorem noChannel_eq : noChannel = -1 := rfl
theorem fullFrameBreakSeed_eq : fullFrameBreakSeed = 0 := rfl
theorem altEdgeCount_eq : altEdgeCount = 7 := rfl

/-! The conditions of R29 as propositions. -/

@[simp] theorem breakLongEnough_iff (n : Nat) : breakLongEnough n = true ↔ 165 < n := decide_eq_true_iff
@[simp] theorem mabTooShort_iff (n : Nat) : mabTooShort n = true ↔ n ≤ 15 := decide_eq_true_iff
@[simp] theorem inStartcodeWindow_iff (n : Nat) : inStartcodeWindow n = true ↔ 67 < n ∧ n < 77 := by
  rw [inStartcodeWindow, Bool.and_eq_true]; exact and_congr decide_eq_true_iff decide_eq_true_iff
@[simp] theorem stopTooShort_iff (n : Nat) : stopTooShort n = true ↔ n ≤ 15 := decide_eq_true_iff
@[simp] theorem earlyTermination_iff (n : Nat) (v : Byte) : earlyTermination n v = true ↔ n ≤ 11 ∧ v = 0#8 := by
  rw [earlyTermination, Bool.and_eq_true]; exact and_congr decide_eq_true_iff decide_eq_true_iff
@[simp] theorem startSampleInPrev_iff (n : Nat) : startSampleInPrev n = true ↔ 4 ≤ n := decide_eq_true_iff
@[simp] theorem lateSample_iff (n : Nat) : lateSample n = true ↔ 4 ≤ n := decide_eq_true_iff

/-! The open widths of R10. -/

@[simp] theorem saturate_none (n : Nat) : saturate none n = n := rfl
theorem saturate_some (w n : Nat) : saturate (some w) n = min n (2 ^ w - 1) := rfl

/-- A register of at least eight bits holds a count of at most 255 as it is (R105). -/
theorem saturate_of_le {width : Option Nat} {n : Nat} (hw : ∀ w, width = some w → 8 ≤ w) (hn : n ≤ 255) :
    saturate width n = n := by
  cases width with
  | none => rfl
  | some w =>
    have := Nat.pow_le_pow_right (n := 2) (by decide) (hw w rfl)
    rw [saturate_some]
    omega

/-- A saturated count passes a threshold below 255 exactly when the unbounded one does (R105). -/
theorem lt_saturate_iff {width : Option Nat} {n k : Nat} (hw : ∀ w, width = some w → 8 ≤ w) (hk : k < 255) :
    k < saturate width n ↔ k < n := by
  cases width with
  | none => rfl
  | some w =>
    have := Nat.pow_le_pow_right (n := 2) (by decide) (hw w rfl)
    rw [saturate_some]
    omega

theorem cursorHolds_none (size : Nat) : cursorHolds none size = true := rfl
theorem cursorHolds_some (w size : Nat) : cursorHolds (some w) size = true ↔ size + 1 < 2 ^ w := decide_eq_true_iff

theorem onesTotal_eq (n z : Nat) : onesTotal n z = n + (8 - z) := rfl
theorem zerosTotal_eq (n o : Nat) : zerosTotal n o = n + (8 - o) := rfl

/-- The register condition of DB.BIT (R88). -/
@[simp] theorem dbBit_enabled (n : Nat) (v b : Byte) : (Instr.dbBit b).enabled n v = true ↔ n < 7 := decide_eq_true_iff

/-- The register condition of DB.LAST (R88). -/
@[simp] theorem dbLast_enabled (n : Nat) (v b : Byte) : (Instr.dbLast b).enabled n v = true ↔ n = 7 := decide_eq_true_iff

/-- The data region is the three states from IN_DATA_STARTBIT on (R29, R87). -/
theorem inDataRegion_iff (st : LineState) :
    inDataRegion st = true ↔ st = .inDataStartbit ∨ st = .inDataBits ∨ st = .inDataStopbits := by
  cases st <;> decide

end Sys2Proof.Machine
end

