-- ==== Sys2Proof/Laws/Ops.lean ====
section
/-! SUPPORT. What each shared operation can do, said once: proofs cite these lemmas instead of unfolding the operations. -/

namespace Sys2Proof.Machine

@[simp] theorem andThen_next (s : State) (k : State → Result) : andThen (.next s) k = k s := rfl
@[simp] theorem andThen_fault (r : Fault) (k : State → Result) : andThen (.fault r) k = .fault r := rfl
@[simp] theorem andThen_refused (r : Refusal) (k : State → Result) : andThen (.refused r) k = .refused r := rfl

/-- A sequence answers a next state only through a next state of its first part. -/
theorem andThen_eq_next {o : Result} {k : State → Result} {t : State} :
    andThen o k = .next t ↔ ∃ u, o = .next u ∧ k u = .next t := by
  cases o <;> simp [andThen]

/-- MemRead(CAP:a, 1) inside the chunk (R51). -/
theorem readCap_of_some {a : Int} {s : State} {b : Byte} (k : Byte → Result) (h0 : 0 ≤ a) (h1 : a < s.size)
    (hb : Memory.read s.chunk a.toNat = some b) : readCap a s k = k b := by
  simp [readCap, h0, h1, hb]

/-- MemRead(CAP:a, 1) outside the chunk (R51; log 10). -/
theorem readCap_of_outside {a : Int} {s : State} (k : Byte → Result) (h : ¬(0 ≤ a ∧ a < s.size)) :
    readCap a s k = .fault .capOutOfRange := by
  simp [readCap, h]

/-- What a CAP read that goes on has read (R51). -/
theorem readCap_eq_next {a : Int} {s t : State} {k : Byte → Result} (h : readCap a s k = .next t) :
    ∃ b, 0 ≤ a ∧ a < s.size ∧ Memory.read s.chunk a.toNat = some b ∧ k b = .next t := by
  unfold readCap at h
  split at h
  · split at h
    · exact ⟨_, by tauto, by tauto, by assumption, h⟩
    · cases h
  · cases h

/-- MemWrite(SINK:i, 1, v) inside the sink (R53). -/
theorem sinkSet_of_slot {i : Int} (v : Byte) (s : State) (h0 : 0 ≤ i) (h1 : i < 512) :
    sinkSet i v s = .next { s with
      sinks := Memory.write s.sinks (slotAddr s.sinkRef i.toNat) v
      outputs := s.outputs ++ [.sinkSet (BitVec.ofNat 9 i.toNat) v] } := by
  have h : 0 ≤ i ∧ i < (slotCount : Int) := ⟨h0, h1⟩
  simp only [sinkSet, if_pos h]

/-- Everything a sink write that goes on has done (R53). -/
theorem sinkSet_eq_next {i : Int} {v : Byte} {s t : State} (h : sinkSet i v s = .next t) :
    0 ≤ i ∧ i < 512 ∧ t = { s with
      sinks := Memory.write s.sinks (slotAddr s.sinkRef i.toNat) v
      outputs := s.outputs ++ [.sinkSet (BitVec.ofNat 9 i.toNat) v] } := by
  unfold sinkSet at h
  split at h
  · rename_i hi
    cases h
    exact ⟨hi.1, hi.2, rfl⟩
  · cases h

/-- SinkFill inside the sink (R54). -/
theorem sinkFill_of_slots {a n : Int} (v : Byte) (s : State) (h0 : 0 ≤ a) (h1 : a < 512) (hn : 0 ≤ n) (he : a + n ≤ 512) :
    sinkFill a v n s = .next { s with
      sinks := Memory.fill s.sinks (slotAddr s.sinkRef a.toNat) v n.toNat
      outputs := s.outputs ++ [.sinkFill (BitVec.ofNat 9 a.toNat) v (BitVec.ofNat 10 n.toNat)] } := by
  have h : 0 ≤ a ∧ a < (slotCount : Int) ∧ 0 ≤ n ∧ a + n ≤ (slotCount : Int) := ⟨h0, h1, hn, he⟩
  simp only [sinkFill, if_pos h]

/-- Everything a fill that goes on has done (R54). -/
theorem sinkFill_eq_next {a n : Int} {v : Byte} {s t : State} (h : sinkFill a v n s = .next t) :
    0 ≤ a ∧ a < 512 ∧ 0 ≤ n ∧ a + n ≤ 512 ∧ t = { s with
      sinks := Memory.fill s.sinks (slotAddr s.sinkRef a.toNat) v n.toNat
      outputs := s.outputs ++ [.sinkFill (BitVec.ofNat 9 a.toNat) v (BitVec.ofNat 10 n.toNat)] } := by
  unfold sinkFill at h
  split at h
  · rename_i hi
    cases h
    exact ⟨hi.1, hi.2.1, hi.2.2.1, hi.2.2.2, rfl⟩
  · cases h

/-- Everything AcceptChannel can do (R185). -/
theorem acceptChannel_eq_next {z : Nat} {s t : State} (h : acceptChannel z s = .next t) :
    -1 ≤ s.cc ∧ s.cc ≤ 510 ∧ t = afterAccept z { s with
      sinks := Memory.write s.sinks (slotAddr s.sinkRef (s.cc + 1).toNat) s.val
      outputs := s.outputs ++ [.sinkSet (BitVec.ofNat 9 (s.cc + 1).toNat) s.val]
      cc := s.cc + 1 } := by
  obtain ⟨u, hu, ht⟩ := andThen_eq_next.1 h
  obtain ⟨h0, h1, rfl⟩ := sinkSet_eq_next hu
  cases ht
  exact ⟨by omega, by omega, rfl⟩

/-- AcceptChannel with `cc` in its range (R185, R188). -/
theorem acceptChannel_of_range {s : State} (z : Nat) (h0 : -1 ≤ s.cc) (h1 : s.cc ≤ 510) :
    acceptChannel z s = .next (afterAccept z { s with
      sinks := Memory.write s.sinks (slotAddr s.sinkRef (s.cc + 1).toNat) s.val
      outputs := s.outputs ++ [.sinkSet (BitVec.ofNat 9 (s.cc + 1).toNat) s.val]
      cc := s.cc + 1 }) := by
  rw [acceptChannel, sinkSet_of_slot _ _ (by omega) (by omega)]
  rfl

/-- Everything a slot boundary can do (R183, R184): a completion and a loss of lock, or an accepted slot. -/
theorem slotBoundary_eq_next {z : Nat} {s t : State} (h : slotBoundary z s = .next t) :
    (onesTotal s.sbc z ≤ 15 ∧ t = advance 1 (lockLoss .dspShort (complete s))) ∨
    (15 < onesTotal s.sbc z ∧ ∃ u, acceptChannel z s = .next u ∧ t = advance 1 u) := by
  unfold slotBoundary at h
  split at h
  · rename_i hs
    cases h
    exact .inl ⟨(stopTooShort_iff _).1 hs, rfl⟩
  · rename_i hs
    rw [stopTooShort_iff, not_le] at hs
    obtain ⟨u, hu, ht⟩ := andThen_eq_next.1 h
    cases ht
    exact .inr ⟨hs, u, hu, rfl⟩

/-- Everything PARSE.BEGIN that goes on has checked and done (R111, R236 row 6, U13). -/
theorem execParseBegin_eq_next {chunk : Memory} {size : Nat} {s t : State} (h : execParseBegin chunk size s = .next t) :
    s.busy = false ∧ cursorHolds s.widths.cursor size = true ∧ Memory.readableTo chunk size = true ∧
      t = { s with busy := true, chunk := chunk, size := size, pc := 0, state := .waitForBreak, sbc := 0 } := by
  unfold execParseBegin at h
  split at h
  · cases h
  · split at h
    · cases h
    · split at h
      · cases h
      · cases h
        simp_all

/-- A sampled bit is 0 or 1 (R133). -/
theorem sample_zero_or_one (b : Byte) (p : Nat) : sample b p = 0#8 ∨ sample b p = 1#8 := by
  unfold sample
  generalize b >>> p = c
  revert c
  decide

/-- The two ends of IN_DATA_STARTBIT (R171, R172). -/
theorem checkStartBit_cases (bit : Byte) (p : Nat) (s : State) :
    (bit = 1#8 ∧ checkStartBit bit p s = lockLoss .dsbStart { s with sp := p }) ∨
    (bit ≠ 1#8 ∧ checkStartBit bit p s = changeState .inDataBits { s with sp := p, val := 0#8 }) := by
  unfold checkStartBit
  by_cases h : bit = 1#8
  · exact .inl ⟨h, if_pos h⟩
  · exact .inr ⟨h, if_neg h⟩

/-- Everything a step that goes on can have been: waiting for a request, or one operation that the fetched word selects. -/
theorem step_eq_next {s t : State} (h : step s = .next t) :
    (fetch s = .idle ∧ t = taken s) ∨
    ∃ f i, fetch s = .word f ∧ decode s.sbc s.val f = some i ∧ exec i (taken s) = .next t := by
  unfold step at h
  split at h
  · rename_i hf
    cases h
    exact .inl ⟨hf, rfl⟩
  · cases h
  · rename_i f hf
    split at h
    · rename_i i hi
      exact .inr ⟨f, i, hf, hi, h⟩
    · cases h

/-- During a call the step word at `pc` is fetched (R112, R113). -/
theorem fetch_of_byte {s : State} {b : Byte} (hb : s.busy = true) (hp : s.pc < s.size)
    (hr : Memory.read s.chunk s.pc = some b) : fetch s = .word (.step (stepWord s.state b)) := by
  simp [fetch, hb, hp, hr]

/-- When the chunk is used up the loop row is taken (R112, R114). -/
theorem fetch_of_end {s : State} (hb : s.busy = true) (hp : s.size ≤ s.pc) : fetch s = .word .loop := by
  simp [fetch, hb, Nat.not_lt.2 hp]

end Sys2Proof.Machine
end

