-- ==== Sys2Proof/Laws/PerInstr.lean ====
section
/-! SUPPORT. A statement about every operation, one lemma per constructor: the step word the encoder writes is one that a
row of spec/opcode_table.json takes, and that row names the operation. -/

namespace Sys2Proof.Laws

open Sys2Proof.Machine

/-- Whether some STEP row has the bits of `w` and names the operation `i` for it (R88). -/
def matchesRow (i : Instr) (w : BitVec 12) : Bool :=
  stepRows.any fun r => decide (w &&& r.mask = r.mtch) && decide (r.build (wordByte w) = i)

/-- The step word of a well-formed operation has the bits of a table row that names it (R88). -/
def EncodeMatchesRow.Statement (i : Instr) : Prop :=
  i.wellFormed = true → ∀ w, encode i = .step w → matchesRow i w = true

/-- The byte of a step word is the byte it was made with. -/
theorem wordByte_stepWord (st : LineState) (b : Byte) : wordByte (stepWord st b) = b := by
  cases st <;> (revert b; decide)

/-- The state code of a step word is its state's. -/
theorem wordCode_stepWord (st : LineState) (b : Byte) : wordCode (stepWord st b) = stateCode st := by
  cases st <;> (revert b; decide)

/-- Every state is read back from its code (R87). -/
theorem stateOfCode_stateCode (st : LineState) : stateOfCode (stateCode st) = some st := by
  cases st <;> rfl

/-- An edge count is one of eight. -/
theorem edgeCount_cases {n : Nat} (h : edgeCount n = true) :
    n = 1 ∨ n = 2 ∨ n = 3 ∨ n = 4 ∨ n = 5 ∨ n = 6 ∨ n = 7 ∨ n = 8 := by
  simp only [edgeCount, Bool.and_eq_true, decide_eq_true_eq] at h
  omega

/-- The mask of a catch-all or sampler row keeps the state code alone. -/
theorem stepWord_and_f00 (st : LineState) (b : Byte) : stepWord st b &&& 0xF00#12 = stepWord st 0#8 := by
  cases st <;> (revert b; decide)

/-- An operation whose word is fixed. -/
theorem matches_of_word {i : Instr} {v : BitVec 12} (he : encode i = .step v) (h : matchesRow i v = true) :
    EncodeMatchesRow.Statement i := by
  intro _ w hw
  rw [he] at hw
  cases hw
  exact h

/-- An operation whose row does not test the byte. -/
theorem matches_of_row {i : Instr} (st : LineState) (b : Byte) (r : OpcodeRow) (hr : r ∈ stepRows)
    (he : encode i = .step (stepWord st b)) (hk : r.mask = 0xF00#12) (hm : r.mtch = stepWord st 0#8) (hb : r.build b = i) :
    EncodeMatchesRow.Statement i := by
  refine matches_of_word he (List.any_eq_true.2 ⟨r, hr, ?_⟩)
  rw [hk, hm, stepWord_and_f00, wordByte_stepWord, hb]
  simp

/-- An operation with an edge count: eight words. -/
theorem matches_of_edge {n : Nat} {f : Nat → Instr} {v : Nat → BitVec 12} (he : ∀ n, encode (f n) = .step (v n))
    (hw : (f n).wellFormed = edgeCount n) (h : ∀ k : Fin 8, matchesRow (f (k.val + 1)) (v (k.val + 1)) = true) :
    EncodeMatchesRow.Statement (f n) := by
  intro hwf
  rw [hw] at hwf
  have hk : ∃ k : Fin 8, n = k.val + 1 := by
    rcases edgeCount_cases hwf with rfl | rfl | rfl | rfl | rfl | rfl | rfl | rfl
    · exact ⟨0, rfl⟩
    · exact ⟨1, rfl⟩
    · exact ⟨2, rfl⟩
    · exact ⟨3, rfl⟩
    · exact ⟨4, rfl⟩
    · exact ⟨5, rfl⟩
    · exact ⟨6, rfl⟩
    · exact ⟨7, rfl⟩
  obtain ⟨k, rfl⟩ := hk
  intro w hw'
  rw [he] at hw'
  cases hw'
  exact h k

theorem EncodeMatchesRow.wfbFall (n : Nat) : EncodeMatchesRow.Statement (.wfbFall n) :=
  matches_of_edge (f := .wfbFall) (fun _ => rfl) rfl (by decide)

theorem EncodeMatchesRow.wfbScan (b : Byte) : EncodeMatchesRow.Statement (.wfbScan b) :=
  matches_of_row .waitForBreak b ⟨stepWord .waitForBreak 0#8, 0xF00#12, always, .wfbScan⟩
    (List.mem_of_getElem? (i := 8) rfl) rfl rfl rfl rfl

theorem EncodeMatchesRow.brkZero : EncodeMatchesRow.Statement .brkZero :=
  matches_of_word rfl (by decide)

theorem EncodeMatchesRow.brkAbort (b : Byte) : EncodeMatchesRow.Statement (.brkAbort b) :=
  matches_of_row .inBreak b ⟨stepWord .inBreak 0#8, 0xF00#12, always, .brkAbort⟩
    (List.mem_of_getElem? (i := 10) rfl) rfl rfl rfl rfl

theorem EncodeMatchesRow.wfmHold : EncodeMatchesRow.Statement .wfmHold :=
  matches_of_word rfl (by decide)

theorem EncodeMatchesRow.wfmRise (n : Nat) : EncodeMatchesRow.Statement (.wfmRise n) :=
  matches_of_edge (f := .wfmRise) (fun _ => rfl) rfl (by decide)

theorem EncodeMatchesRow.wfmAbort (b : Byte) : EncodeMatchesRow.Statement (.wfmAbort b) :=
  matches_of_row .waitForMab b ⟨stepWord .waitForMab 0#8, 0xF00#12, always, .wfmAbort⟩
    (List.mem_of_getElem? (i := 20) rfl) rfl rfl rfl rfl

theorem EncodeMatchesRow.mabOnes : EncodeMatchesRow.Statement .mabOnes :=
  matches_of_word rfl (by decide)

theorem EncodeMatchesRow.mabFall (n : Nat) : EncodeMatchesRow.Statement (.mabFall n) :=
  matches_of_edge (f := .mabFall) (fun _ => rfl) rfl (by decide)

theorem EncodeMatchesRow.mabNoise (b : Byte) : EncodeMatchesRow.Statement (.mabNoise b) :=
  matches_of_row .inMab b ⟨stepWord .inMab 0#8, 0xF00#12, always, .mabNoise⟩
    (List.mem_of_getElem? (i := 30) rfl) rfl rfl rfl rfl

theorem EncodeMatchesRow.scZero : EncodeMatchesRow.Statement .scZero :=
  matches_of_word rfl (by decide)

theorem EncodeMatchesRow.scRise (n : Nat) : EncodeMatchesRow.Statement (.scRise n) :=
  matches_of_edge (f := .scRise) (fun _ => rfl) rfl (by decide)

theorem EncodeMatchesRow.scNoise (b : Byte) : EncodeMatchesRow.Statement (.scNoise b) :=
  matches_of_row .inStartcode b ⟨stepWord .inStartcode 0#8, 0xF00#12, always, .scNoise⟩
    (List.mem_of_getElem? (i := 40) rfl) rfl rfl rfl rfl

theorem EncodeMatchesRow.scsOnes : EncodeMatchesRow.Statement .scsOnes :=
  matches_of_word rfl (by decide)

theorem EncodeMatchesRow.scsFall (n : Nat) : EncodeMatchesRow.Statement (.scsFall n) :=
  matches_of_edge (f := .scsFall) (fun _ => rfl) rfl (by decide)

theorem EncodeMatchesRow.scsNoise (b : Byte) : EncodeMatchesRow.Statement (.scsNoise b) :=
  matches_of_row .inStartcodeStopbits b ⟨stepWord .inStartcodeStopbits 0#8, 0xF00#12, always, .scsNoise⟩
    (List.mem_of_getElem? (i := 50) rfl) rfl rfl rfl rfl

theorem EncodeMatchesRow.dsbPrev (b : Byte) : EncodeMatchesRow.Statement (.dsbPrev b) :=
  matches_of_row .inDataStartbit b ⟨stepWord .inDataStartbit 0#8, 0xF00#12, sbcAtLeast4, .dsbPrev⟩
    (List.mem_of_getElem? (i := 51) rfl) rfl rfl rfl rfl

theorem EncodeMatchesRow.dsbCur (b : Byte) : EncodeMatchesRow.Statement (.dsbCur b) :=
  matches_of_row .inDataStartbit b ⟨stepWord .inDataStartbit 0#8, 0xF00#12, sbcBelow4, .dsbCur⟩
    (List.mem_of_getElem? (i := 52) rfl) rfl rfl rfl rfl

theorem EncodeMatchesRow.dbBit (b : Byte) : EncodeMatchesRow.Statement (.dbBit b) :=
  matches_of_row .inDataBits b ⟨stepWord .inDataBits 0#8, 0xF00#12, sbcBelow7, .dbBit⟩
    (List.mem_of_getElem? (i := 53) rfl) rfl rfl rfl rfl

theorem EncodeMatchesRow.dbLast (b : Byte) : EncodeMatchesRow.Statement (.dbLast b) :=
  matches_of_row .inDataBits b ⟨stepWord .inDataBits 0#8, 0xF00#12, sbcIs7, .dbLast⟩
    (List.mem_of_getElem? (i := 54) rfl) rfl rfl rfl rfl

theorem EncodeMatchesRow.dspOnes : EncodeMatchesRow.Statement .dspOnes :=
  matches_of_word rfl (by decide)

theorem EncodeMatchesRow.dspEarly : EncodeMatchesRow.Statement .dspEarly :=
  matches_of_word rfl (by decide)

theorem EncodeMatchesRow.dspFall (n : Nat) : EncodeMatchesRow.Statement (.dspFall n) :=
  matches_of_edge (f := .dspFall) (fun _ => rfl) rfl (by decide)

theorem EncodeMatchesRow.dspAlt : EncodeMatchesRow.Statement .dspAlt :=
  matches_of_word rfl (by decide)

theorem EncodeMatchesRow.dspNoise (b : Byte) : EncodeMatchesRow.Statement (.dspNoise b) :=
  matches_of_row .inDataStopbits b ⟨stepWord .inDataStopbits 0#8, 0xF00#12, always, .dspNoise⟩
    (List.mem_of_getElem? (i := 66) rfl) rfl rfl rfl rfl

theorem EncodeMatchesRow.construct (start : Bool) (sink : Nat) (cb : Bool) : EncodeMatchesRow.Statement (.construct start sink cb) :=
  fun _ _ hw => nomatch hw

theorem EncodeMatchesRow.parseBegin (chunk : Memory) (size : Nat) : EncodeMatchesRow.Statement (.parseBegin chunk size) :=
  fun _ _ hw => nomatch hw

theorem EncodeMatchesRow.parseEnd : EncodeMatchesRow.Statement (.parseEnd) :=
  fun _ _ hw => nomatch hw

end Sys2Proof.Laws
end

