-- ==== Sys2Proof/Tests/Slice0.lean ====
section
/-! SUPPORT. The model's own tests. Expected values are those of spec/95_test_vectors.md (V<n>, H<n> and the sections 2.1 to
2.11) or are worked out by hand from the rules named. The theorems named test_witness_<Name> show a state and operands that
meet the hypotheses of Obligations.<Name>, one for each clause at the ends of its range. -/

namespace Sys2Proof.Tests

open Sys2Proof Sys2Proof.Machine Sys2Proof.Claims

/-! ## Small states -/

/-- The cells of some bytes from address `a` up. -/
def cells (a : Nat) : List Byte → Memory
  | [] => []
  | b :: bs => (a, b) :: cells (a + 1) bs

/-- A call in progress over `bytes`. -/
def during (st : LineState) (sbc sp : Nat) (val : Byte) (cc : Int) (bytes : List Byte) (pc : Nat) : State :=
  { State.reset with
    state := st, sbc := sbc, sp := sp, val := val, cc := cc, busy := true
    chunk := cells 0 bytes, size := bytes.length, pc := pc }

/-- What a test looks at after a step. -/
structure Seen where
  state : LineState
  sbc : Nat
  sp : Nat
  val : Byte
  cc : Int
  pc : Nat
  outputs : List OutEvent
deriving DecidableEq

/-- The registers and the events after a step, if it goes on. -/
def seen (o : Result) : Option Seen :=
  match o with
  | .next t => some ⟨t.state, t.sbc, t.sp, t.val, t.cc, t.pc, t.outputs⟩
  | .fault _ => none
  | .refused _ => none

/-- What a slot of store 0 holds after a step. -/
def slotSeen (o : Result) (k : Nat) : Option Byte :=
  match o with
  | .next t => t.slot 0 k
  | .fault _ => none
  | .refused _ => none

/-! ## Well-formedness: an ill-formed term for each check -/

theorem test_wf_counts_below_one :
    (Instr.wfbFall 0).wellFormed = false ∧ (Instr.wfmRise 0).wellFormed = false ∧ (Instr.mabFall 0).wellFormed = false ∧
    (Instr.scRise 0).wellFormed = false ∧ (Instr.scsFall 0).wellFormed = false ∧ (Instr.dspFall 0).wellFormed = false := by
  decide

theorem test_wf_counts_above_eight :
    (Instr.wfbFall 9).wellFormed = false ∧ (Instr.wfmRise 9).wellFormed = false ∧ (Instr.mabFall 9).wellFormed = false ∧
    (Instr.scRise 9).wellFormed = false ∧ (Instr.scsFall 9).wellFormed = false ∧ (Instr.dspFall 9).wellFormed = false := by
  decide

theorem test_wf_catch_all_bytes :
    (Instr.wfbScan 0xF0#8).wellFormed = false ∧
    (Instr.brkAbort 0x00#8).wellFormed = false ∧
    (Instr.wfmAbort 0x00#8).wellFormed = false ∧ (Instr.wfmAbort 0x0F#8).wellFormed = false ∧
    (Instr.mabNoise 0xFF#8).wellFormed = false ∧ (Instr.mabNoise 0xFE#8).wellFormed = false ∧
    (Instr.scNoise 0x00#8).wellFormed = false ∧ (Instr.scNoise 0xFF#8).wellFormed = false ∧
    (Instr.scsNoise 0xFF#8).wellFormed = false ∧ (Instr.scsNoise 0x00#8).wellFormed = false ∧
    (Instr.dspNoise 0xFF#8).wellFormed = false ∧ (Instr.dspNoise 0x80#8).wellFormed = false ∧
    (Instr.dspNoise 0x01#8).wellFormed = false := by
  decide

/-! ## Decoding: words written out from R87 to R89 and R99 (code, then byte) -/

theorem test_decode_waitForBreak :
    decodeStep 0 0#8 0b000011000000#12 = some (.wfbFall 6) ∧
    decodeStep 0 0#8 0b000001111110#12 = some (.wfbScan 0x7E#8) ∧
    decodeStep 0 0#8 0b000000000001#12 = some (.wfbScan 0x01#8) := by decide

theorem test_decode_inBreak :
    decodeStep 0 0#8 0b000100000000#12 = some .brkZero ∧
    decodeStep 0 0#8 0b000110000000#12 = some (.brkAbort 0x80#8) := by decide

theorem test_decode_waitForMab :
    decodeStep 0 0#8 0b001000000000#12 = some .wfmHold ∧
    decodeStep 0 0#8 0b001000000111#12 = some (.wfmRise 3) ∧
    decodeStep 0 0#8 0b001011111110#12 = some (.wfmAbort 0xFE#8) := by decide

theorem test_decode_inMab :
    decodeStep 0 0#8 0b001111111111#12 = some .mabOnes ∧
    decodeStep 0 0#8 0b001100000000#12 = some (.mabFall 8) ∧
    decodeStep 0 0#8 0b001101111111#12 = some (.mabNoise 0x7F#8) := by decide

theorem test_decode_inStartcode :
    decodeStep 0 0#8 0b010000000000#12 = some .scZero ∧
    decodeStep 0 0#8 0b010011111111#12 = some (.scRise 8) ∧
    decodeStep 0 0#8 0b010000010000#12 = some (.scNoise 0x10#8) := by decide

theorem test_decode_inStartcodeStopbits :
    decodeStep 0 0#8 0b010111111111#12 = some .scsOnes ∧
    decodeStep 0 0#8 0b010111111000#12 = some (.scsFall 3) ∧
    decodeStep 0 0#8 0b010100000001#12 = some (.scsNoise 0x01#8) := by decide

theorem test_decode_inDataStartbit :
    decodeStep 4 0#8 0b011010101010#12 = some (.dsbPrev 0xAA#8) ∧
    decodeStep 3 0#8 0b011010101010#12 = some (.dsbCur 0xAA#8) := by decide

theorem test_decode_inDataBits :
    decodeStep 6 0#8 0b011111101111#12 = some (.dbBit 0xEF#8) ∧
    decodeStep 7 0#8 0b011111101111#12 = some (.dbLast 0xEF#8) ∧
    decodeStep 8 0#8 0b011111101111#12 = none := by decide

theorem test_decode_inDataStopbits :
    decodeStep 4 0#8 0b100011111111#12 = some .dspOnes ∧
    decodeStep 11 0#8 0b100000000000#12 = some .dspEarly ∧
    decodeStep 12 0#8 0b100000000000#12 = some (.dspFall 8) ∧
    decodeStep 11 1#8 0b100000000000#12 = some (.dspFall 8) ∧
    decodeStep 4 0#8 0b100011110000#12 = some (.dspFall 4) ∧
    decodeStep 4 0#8 0b100000000001#12 = some .dspAlt ∧
    decodeStep 4 0#8 0b100000111111#12 = some (.dspNoise 0x3F#8) := by decide

theorem test_decode_reserved : decodeStep 0 0#8 0b100100000000#12 = none ∧ decodeStep 0 0#8 0b111111111111#12 = none := by
  decide

theorem test_decode_host_and_loop :
    decodeTableWord 8 0b10 = some (.construct false 0 false) ∧
    decodeTableWord 8 0b11 = some (.construct true 0 false) ∧
    decodeTableWord 8 0b01 = some (.parseBegin [] 0) ∧
    decodeTableWord 8 0 = some .parseEnd ∧
    decodeTableWord 8 4 = none ∧
    decodeTableWord 16 0x1000 = none := by decide

/-- Section 2.1: all sixteen edge bytes. -/
theorem test_detectors :
    [0x00#8, 0x80#8, 0xC0#8, 0xE0#8, 0xF0#8, 0xF8#8, 0xFC#8, 0xFE#8].map fallingEdge =
      [some 8, some 7, some 6, some 5, some 4, some 3, some 2, some 1] ∧
    [0x01#8, 0x03#8, 0x07#8, 0x0F#8, 0x1F#8, 0x3F#8, 0x7F#8, 0xFF#8].map risingEdge =
      [some 1, some 2, some 3, some 4, some 5, some 6, some 7, some 8] := by decide

/-- Section 2.1: the samples shown there. -/
theorem test_sample :
    sample 0x80#8 7 = 1#8 ∧ sample 0x80#8 6 = 0#8 ∧ sample 0x01#8 0 = 1#8 ∧ sample 0x01#8 3 = 0#8 ∧
    sample 0xF0#8 4 = 1#8 ∧ sample 0xF0#8 3 = 0#8 ∧ sample 0x7C#8 6 = 1#8 ∧ sample 0x10#8 4 = 1#8 := by decide

/-! ## One step, by the rows of sections 2.2 to 2.10 -/

theorem test_WFB_FALL : seen (step (during .waitForBreak 0 4 0x7F#8 1 [0x00#8] 0)) =
    some ⟨.inBreak, 8, 4, 0x7F#8, 1, 1, []⟩ := by decide

theorem test_WFB_SCAN : seen (step (during .waitForBreak 0 0 0#8 (-1) [0x01#8] 0)) =
    some ⟨.waitForBreak, 0, 0, 0#8, -1, 1, []⟩ := by decide

theorem test_BRK_ZERO_165 : seen (step (during .inBreak 157 0 0#8 (-1) [0x00#8] 0)) =
    some ⟨.inBreak, 165, 0, 0#8, -1, 1, []⟩ := by decide

theorem test_BRK_ZERO_166 : seen (step (during .inBreak 158 0 0#8 5 [0x00#8] 0)) =
    some ⟨.waitForMab, 0, 0, 0#8, -1, 1, []⟩ := by decide

theorem test_BRK_ABORT : seen (step (during .inBreak 160 0 0#8 5 [0x80#8] 0)) =
    some ⟨.waitForBreak, 0, 0, 0#8, 5, 1, []⟩ := by decide

theorem test_WFM_HOLD : seen (step (during .waitForMab 0 0 0#8 (-1) [0x00#8] 0)) =
    some ⟨.waitForMab, 0, 0, 0#8, -1, 1, []⟩ := by decide

theorem test_WFM_RISE : seen (step (during .waitForMab 0 0 0#8 (-1) [0x7F#8] 0)) =
    some ⟨.inMab, 7, 0, 0#8, -1, 1, []⟩ := by decide

theorem test_WFM_ABORT : seen (step (during .waitForMab 0 0 0#8 (-1) [0xFE#8] 0)) =
    some ⟨.waitForBreak, 0, 0, 0#8, -1, 1, []⟩ := by decide

theorem test_MAB_ONES : seen (step (during .inMab 8 0 0#8 (-1) [0xFF#8] 0)) =
    some ⟨.inMab, 16, 0, 0#8, -1, 1, []⟩ := by decide

theorem test_MAB_FALL_short : seen (step (during .inMab 8 0 0#8 (-1) [0xFE#8] 0)) =
    some ⟨.waitForBreak, 0, 0, 0#8, -1, 1, []⟩ := by decide

theorem test_MAB_FALL_pass : seen (step (during .inMab 9 0 0#8 (-1) [0xFE#8] 0)) =
    some ⟨.inStartcode, 1, 0, 0#8, -1, 1, []⟩ := by decide

theorem test_MAB_NOISE : seen (step (during .inMab 40 0 0#8 (-1) [0x7F#8] 0)) =
    some ⟨.waitForBreak, 0, 0, 0#8, -1, 1, []⟩ := by decide

theorem test_SC_ZERO : seen (step (during .inStartcode 80 0 0#8 (-1) [0x00#8] 0)) =
    some ⟨.inStartcode, 88, 0, 0#8, -1, 1, []⟩ := by decide

theorem test_SC_RISE_67 : seen (step (during .inStartcode 66 0 0#8 (-1) [0x7F#8] 0)) =
    some ⟨.waitForBreak, 0, 0, 0#8, -1, 1, []⟩ := by decide

theorem test_SC_RISE_76 : seen (step (during .inStartcode 75 0 0#8 (-1) [0x7F#8] 0)) =
    some ⟨.inStartcodeStopbits, 7, 0, 0#8, -1, 1, []⟩ := by decide

theorem test_SC_NOISE : seen (step (during .inStartcode 72 0 0#8 (-1) [0x80#8] 0)) =
    some ⟨.waitForBreak, 0, 0, 0#8, -1, 1, []⟩ := by decide

theorem test_SCS_ONES : seen (step (during .inStartcodeStopbits 7 0 0#8 (-1) [0xFF#8] 0)) =
    some ⟨.inStartcodeStopbits, 15, 0, 0#8, -1, 1, []⟩ := by decide

theorem test_SCS_FALL_15 : seen (step (during .inStartcodeStopbits 15 0 0#8 (-1) [0x00#8] 0)) =
    some ⟨.waitForBreak, 0, 0, 0#8, -1, 1, []⟩ := by decide

theorem test_SCS_FALL_17 : seen (step (during .inStartcodeStopbits 12 0 0#8 (-1) [0xF8#8] 0)) =
    some ⟨.inDataStartbit, 3, 0, 0#8, -1, 1, []⟩ := by decide

theorem test_SCS_NOISE : seen (step (during .inStartcodeStopbits 16 0 0#8 (-1) [0x01#8] 0)) =
    some ⟨.waitForBreak, 0, 0, 0#8, -1, 1, []⟩ := by decide

theorem test_DSB_PREV_valid : seen (step (during .inDataStartbit 7 6 0x77#8 (-1) [0x80#8, 0xAA#8] 1)) =
    some ⟨.inDataBits, 0, 3, 0#8, -1, 1, []⟩ := by decide

theorem test_DSB_PREV_invalid : seen (step (during .inDataStartbit 5 6 0x77#8 (-1) [0xFF#8, 0x00#8] 1)) =
    some ⟨.waitForBreak, 0, 1, 0x77#8, -1, 1, []⟩ := by decide

theorem test_DSB_CUR_valid : seen (step (during .inDataStartbit 1 6 0x77#8 (-1) [0xFE#8, 0xDF#8] 1)) =
    some ⟨.inDataBits, 0, 5, 0#8, -1, 2, []⟩ := by decide

theorem test_DSB_CUR_invalid : seen (step (during .inDataStartbit 3 6 0x77#8 (-1) [0xF8#8, 0x80#8] 1)) =
    some ⟨.waitForBreak, 0, 7, 0x77#8, -1, 2, []⟩ := by decide

theorem test_DB_BIT_one : seen (step (during .inDataBits 2 6 0x01#8 (-1) [0x7C#8] 0)) =
    some ⟨.inDataBits, 3, 6, 0x05#8, -1, 1, []⟩ := by decide

theorem test_DB_BIT_zero : seen (step (during .inDataBits 6 7 0x15#8 (-1) [0x7F#8] 0)) =
    some ⟨.inDataBits, 7, 7, 0x15#8, -1, 1, []⟩ := by decide

theorem test_DB_LAST_late : seen (step (during .inDataBits 7 4 0x2A#8 (-1) [0xFF#8] 0)) =
    some ⟨.inDataStopbits, 4, 4, 0xAA#8, -1, 1, []⟩ := by decide

theorem test_DB_LAST_early : seen (step (during .inDataBits 7 3 0x7F#8 (-1) [0x08#8] 0)) =
    some ⟨.inDataStopbits, 11, 3, 0xFF#8, -1, 2, []⟩ := by decide

theorem test_DSP_ONES : seen (step (during .inDataStopbits 4 4 0#8 4 [0xFF#8] 0)) =
    some ⟨.inDataStopbits, 12, 4, 0#8, 4, 1, []⟩ := by decide

theorem test_DSP_EARLY_510 : seen (step (during .inDataStopbits 11 4 0#8 510 [0x00#8] 0)) =
    some ⟨.inBreak, 80, 4, 0#8, 511, 1, [.sinkFill 511#9 0#8 1#10, .complete]⟩ := by decide

theorem test_DSP_EARLY_clears_from_506 : slotSeen (exec .dspEarly (during .inDataStopbits 11 4 0#8 505 [] 0)) 505 = none ∧
    slotSeen (exec .dspEarly (during .inDataStopbits 11 4 0#8 505 [] 0)) 506 = some 0#8 ∧
    slotSeen (exec .dspEarly (during .inDataStopbits 11 4 0#8 505 [] 0)) 511 = some 0#8 := by decide

theorem test_DSP_FALL_511 : seen (step (during .inDataStopbits 20 4 0x07#8 510 [0xF8#8] 0)) =
    some ⟨.inBreak, 0, 4, 0x07#8, 511, 1, [.sinkSet 511#9 0x07#8, .complete]⟩ := by decide

theorem test_DSP_FALL_short : seen (step (during .inDataStopbits 12 4 0x55#8 3 [0xE0#8] 0)) =
    some ⟨.waitForBreak, 0, 4, 0x55#8, 3, 1, [.complete]⟩ := by decide

theorem test_DSP_ALT_16 : seen (step (during .inDataStopbits 15 4 0x10#8 4 [0x01#8] 0)) =
    some ⟨.inDataStartbit, 7, 4, 0x10#8, 5, 1, [.sinkSet 5#9 0x10#8]⟩ := by decide

theorem test_DSP_ALT_15 : seen (step (during .inDataStopbits 14 4 0x10#8 4 [0x01#8] 0)) =
    some ⟨.waitForBreak, 0, 4, 0x10#8, 4, 1, [.complete]⟩ := by decide

theorem test_DSP_NOISE : seen (step (during .inDataStopbits 4 4 0#8 1 [0x3F#8] 0)) =
    some ⟨.waitForBreak, 0, 4, 0#8, 1, 1, [.complete]⟩ := by decide

/-! ## Host operations and the loop: H1, H2, H3 and the table of PARSE.END -/

/-- The registers V4 leaves behind, between two calls, with one request waiting. -/
def afterV4 (q : HostRequest) : State :=
  { State.reset with state := .inDataBits, pc := 51, sbc := 4, sp := 4, val := 0x0C#8, cc := 0, requests := [q] }

/-- A `parse` request for `bytes`. -/
def parseOf (bytes : List Byte) : HostRequest :=
  { emptyRequest with start := true, chunk := cells 0 bytes, size := bytes.length }

theorem test_CONSTRUCT : seen (step (afterV4 { emptyRequest with rst := true, start := true, sink := 2 })) =
    some ⟨.waitForBreak, 0, 0, 0#8, -1, 0, []⟩ := by decide

theorem test_PARSE_BEGIN : seen (step (afterV4 (parseOf [0xFF#8]))) =
    some ⟨.waitForBreak, 0, 4, 0x0C#8, 0, 0, []⟩ := by decide

theorem test_PARSE_END_data_bits : seen (step (during .inDataBits 4 4 0x0C#8 0 [0xFF#8] 1)) =
    some ⟨.inDataBits, 4, 4, 0x0C#8, 0, 1, [.complete]⟩ := by decide

theorem test_PARSE_END_stopbits_of_start_code : seen (step (during .inStartcodeStopbits 16 0 0#8 (-1) [0xFF#8] 1)) =
    some ⟨.inStartcodeStopbits, 16, 0, 0#8, -1, 1, []⟩ := by decide

/-- H5, in two steps. -/
theorem test_empty_call : seen (steps 2 (afterV4 (parseOf []))) =
    some ⟨.waitForBreak, 0, 4, 0x0C#8, 0, 0, []⟩ := by decide

/-! ## The word placed where the step fetches -/

theorem test_place_step_words :
    seen (step (State.reset.withFetchWord 16 0x0E0)) = some ⟨.inBreak, 5, 0, 0#8, -1, 1, []⟩ ∧
    seen (step (State.reset.withFetchWord 16 0x2FF)) = some ⟨.inMab, 8, 0, 0#8, -1, 1, []⟩ ∧
    seen (step (State.reset.withFetchWord 16 0x87E)) = some ⟨.waitForBreak, 0, 0, 0#8, -1, 1, [.complete]⟩ := by decide

theorem test_place_host_and_loop_words :
    seen (step (State.reset.withFetchWord 8 0b01)) = some ⟨.waitForBreak, 0, 0, 0#8, -1, 0, []⟩ ∧
    seen (step (State.reset.withFetchWord 8 0b10)) = some ⟨.waitForBreak, 0, 0, 0#8, -1, 0, []⟩ ∧
    seen (step (State.reset.withFetchWord 8 0)) = some ⟨.waitForBreak, 0, 0, 0#8, -1, 0, []⟩ := by decide

/-! ## Witnesses for the hypotheses -/

/-- `NextBytes` by a bounded check. -/
theorem nextBytes_of_reads {s : State} {bs : List Byte} (hl : s.pc + bs.length ≤ s.size)
    (hr : ∀ k, k < bs.length → Memory.read s.chunk (s.pc + k) = bs[k]?) : NextBytes s bs := by
  refine ⟨hl, fun k b hb => ?_⟩
  rw [hr k (List.getElem?_eq_some_iff.1 hb).1, hb]

/-- The invariant of a call in progress with nothing written yet. -/
theorem inv_of_call {s : State} (hb : s.busy = true) (count : CountInRange s) (channel : ChannelInRange s)
    (position : s.sp ≤ 7) (cursor : s.pc ≤ s.size) (edge : s.state = .inDataStartbit → EdgeByteBefore s)
    (readable : Readable s.chunk s.size) (chunkWf : Memory.wf s.chunk = true) (sinks : s.sinks = [])
    (outputs : s.outputs = []) (requests : s.requests = [])
    (widths : s.widths = Config.resetWidths) : s.Inv :=
  { count := count, channel := channel, position := position, cursor := fun _ => .inl cursor
    edge := fun _ => edge, readable := readable, chunkWf := chunkWf, sinksWf := by rw [sinks]; rfl
    unbound := fun h => by rw [hb] at h; cases h
    outputs := by rw [outputs]; intro e he; cases he
    requests := by rw [requests]; intro q hq; cases hq
    widthsOk := by rw [widths]; intro k hk; cases hk
    countHeld := by rw [widths]; intro k hk; cases hk
    cursorHeld := by rw [widths]; intro k hk; cases hk }

/-- The line high in WAIT_FOR_BREAK. -/
def wScan : State := during .waitForBreak 0 0 0#8 (-1) [0xFF#8, 0x7E#8] 0
/-- The look-back after an edge byte with `z = 4`. -/
def wPrev4 : State := during .inDataStartbit 4 0 0#8 (-1) [0xF0#8, 0x00#8] 1
/-- The look-back after an edge byte with `z = 8`. -/
def wPrev8 : State := during .inDataStartbit 8 0 0#8 510 [0x00#8, 0x00#8] 1
/-- The look-back after DSP.ALT. -/
def wPrevAlt : State := during .inDataStartbit 7 0 0#8 0 [0x01#8, 0xFF#8] 1
/-- The first byte of the stop bits, high. -/
def wStop : State := during .inDataStopbits 4 4 0#8 (-1) [0xFF#8, 0x00#8] 0
/-- The end of IN_BREAK. -/
def wBreak : State := during .inBreak 160 0 0#8 511 [0x00#8, 0x00#8] 0

theorem wScan_inv : wScan.Inv :=
  inv_of_call rfl rfl ⟨by decide, by decide⟩ (by decide) (by decide) (fun h => absurd h (by decide))
    (by unfold Readable; decide) rfl rfl rfl rfl rfl
theorem wPrev4_inv : wPrev4.Inv :=
  inv_of_call rfl ⟨by decide, by decide⟩ ⟨by decide, by decide⟩ (by decide) (by decide)
    (fun _ => ⟨by decide, by decide, 0xF0#8, by decide, by decide⟩) (by unfold Readable; decide) rfl rfl rfl rfl rfl
theorem wPrev8_inv : wPrev8.Inv :=
  inv_of_call rfl ⟨by decide, by decide⟩ ⟨by decide, by decide⟩ (by decide) (by decide)
    (fun _ => ⟨by decide, by decide, 0x00#8, by decide, by decide⟩) (by unfold Readable; decide) rfl rfl rfl rfl rfl
theorem wPrevAlt_inv : wPrevAlt.Inv :=
  inv_of_call rfl ⟨by decide, by decide⟩ ⟨by decide, by decide⟩ (by decide) (by decide)
    (fun _ => ⟨by decide, by decide, 0x01#8, by decide, by decide⟩) (by unfold Readable; decide) rfl rfl rfl rfl rfl
theorem wStop_inv : wStop.Inv :=
  inv_of_call rfl ⟨by decide, .inl (by decide)⟩ ⟨by decide, by decide⟩ (by decide) (by decide) (fun h => absurd h (by decide))
    (by unfold Readable; decide) rfl rfl rfl rfl rfl
theorem wBreak_inv : wBreak.Inv :=
  inv_of_call rfl (show 160 ≤ 165 by decide) ⟨by decide, by decide⟩ (by decide) (by decide) (fun h => absurd h (by decide))
    (by unfold Readable; decide) rfl rfl rfl rfl rfl

theorem test_witness_DetectorsAreDisjointAndMirrored :
    (fallingEdge 0x00#8).isSome = true ∧ (fallingEdge 0xFE#8).isSome = true ∧
    (0x7E#8).getLsbD 0 ≠ (0x7E#8).getLsbD 1 ∧ (0x7E#8).getLsbD 6 ≠ (0x7E#8).getLsbD 7 := by decide

theorem test_witness_ReservedCodesSelectNothing : 9 ≤ (0x900#12).toNat / 256 ∧ 9 ≤ (0xFFF#12).toNat / 256 := by decide

theorem test_witness_StepRunsTheSelectedOperation :
    (Examines wScan .waitForBreak 0xFF#8 ∧ decode 0 0#8 (.step (stepWord .waitForBreak 0xFF#8)) = some (.wfbScan 0xFF#8)) ∧
    (let s := during .inMab 8 0 0#8 (-1) [] 0; s.busy = true ∧ s.size ≤ s.pc) ∧
    (let q := { emptyRequest with rst := true }; (afterV4 q).busy = false ∧ (afterV4 q).requests = q :: [] ∧ q.rst = true) ∧
    (let q := parseOf []; (afterV4 q).busy = false ∧ (afterV4 q).requests = q :: [] ∧ q.rst = false ∧ q.start = true) ∧
    (let q := emptyRequest; (afterV4 q).busy = false ∧ (afterV4 q).requests = q :: [] ∧ q.rst = false ∧ q.start = false) ∧
    (State.reset.busy = false ∧ State.reset.requests = []) := by
  unfold Examines; decide

theorem test_witness_WfbFallEntersTheBreak :
    (Examines (during .waitForBreak 0 0 0#8 (-1) [0x00#8] 0) .waitForBreak 0x00#8 ∧ fallingEdge 0x00#8 = some 8) ∧
    (Examines (during .waitForBreak 0 0 0#8 (-1) [0xFE#8] 0) .waitForBreak 0xFE#8 ∧ fallingEdge 0xFE#8 = some 1) := by
  unfold Examines; decide

theorem test_witness_ScanAndHoldOnlyAdvance :
    (Examines wScan .waitForBreak 0xFF#8 ∧ fallingEdge 0xFF#8 = none) ∧
    Examines (during .waitForMab 0 0 0#8 (-1) [0x00#8] 0) .waitForMab 0x00#8 := by
  unfold Examines; decide

/-- `s` in a decoder with an eight-bit `sbc` and a four-bit cursor. -/
def narrow (s : State) : State := { s with widths := { cursor := some 4, sbc := some 8 } }

theorem test_saturating_count : seen (step (narrow (during .inMab 250 0 0#8 (-1) [0xFF#8] 0))) =
    some ⟨.inMab, 255, 0, 0#8, -1, 1, []⟩ := by decide

theorem test_witness_BrkZeroCountsTheBreak :
    eightMore (during .inBreak 157 0 0#8 5 [] 0) ≤ 165 ∧ 165 < eightMore (during .inBreak 158 0 0#8 5 [] 0) ∧
    165 < eightMore (narrow (during .inBreak 158 0 0#8 5 [] 0)) ∧ Examines wBreak .inBreak 0x00#8 := by
  unfold Examines; decide

theorem test_witness_NoiseLosesTheLockInFraming :
    (Examines (during .inBreak 8 0 0#8 (-1) [0x01#8] 0) .inBreak 0x01#8 ∧ 0x01#8 ≠ 0x00#8) ∧
    (Examines (during .waitForMab 0 0 0#8 (-1) [0x80#8] 0) .waitForMab 0x80#8 ∧ 0x80#8 ≠ 0x00#8 ∧ risingEdge 0x80#8 = none) ∧
    (Examines (during .inMab 16 0 0#8 (-1) [0x7F#8] 0) .inMab 0x7F#8 ∧ 0x7F#8 ≠ 0xFF#8 ∧ fallingEdge 0x7F#8 = none) ∧
    (Examines (during .inStartcode 72 0 0#8 (-1) [0x80#8] 0) .inStartcode 0x80#8 ∧ 0x80#8 ≠ 0x00#8 ∧
      risingEdge 0x80#8 = none) ∧
    (Examines (during .inStartcodeStopbits 16 0 0#8 (-1) [0x01#8] 0) .inStartcodeStopbits 0x01#8 ∧ 0x01#8 ≠ 0xFF#8 ∧
      fallingEdge 0x01#8 = none) := by
  unfold Examines; decide

theorem test_witness_WfmRiseEntersTheMab :
    (Examines (during .waitForMab 0 0 0#8 (-1) [0x01#8] 0) .waitForMab 0x01#8 ∧ risingEdge 0x01#8 = some 1) ∧
    (Examines (during .waitForMab 0 0 0#8 (-1) [0xFF#8] 0) .waitForMab 0xFF#8 ∧ risingEdge 0xFF#8 = some 8) := by
  unfold Examines; decide

theorem test_witness_LevelBytesAddEightSamples :
    Examines (during .inMab 1 0 0#8 (-1) [0xFF#8] 0) .inMab 0xFF#8 ∧
    Examines (during .inStartcode 1 0 0#8 (-1) [0x00#8] 0) .inStartcode 0x00#8 ∧
    Examines (during .inStartcodeStopbits 1 0 0#8 (-1) [0xFF#8] 0) .inStartcodeStopbits 0xFF#8 ∧
    Examines wStop .inDataStopbits 0xFF#8 := by
  unfold Examines; decide

theorem test_witness_MabFallTestsTheMab :
    (during .inMab 8 0 0#8 (-1) [] 0).sbc + (8 - 1) ≤ 15 ∧ 15 < (during .inMab 9 0 0#8 (-1) [] 0).sbc + (8 - 1) ∧
    Examines (during .inMab 9 0 0#8 (-1) [0xFE#8] 0) .inMab 0xFE#8 ∧ fallingEdge 0xFE#8 = some 1 := by
  unfold Examines; decide

theorem test_witness_ScRiseTestsTheWindow :
    (67 < 60 + (8 - 0) ∧ 60 + (8 - 0) < 77) ∧ (67 < 69 + (8 - 1) ∧ 69 + (8 - 1) < 77) ∧ 60 + (8 - 1) ≤ 67 ∧ 77 ≤ 70 + (8 - 1) ∧
    Examines (during .inStartcode 69 0 0#8 (-1) [0x01#8] 0) .inStartcode 0x01#8 ∧ risingEdge 0x01#8 = some 1 := by
  unfold Examines; decide

theorem test_witness_ScsFallTestsTheStopBits :
    15 + (8 - 8) ≤ 15 ∧ 15 < 16 + (8 - 8) ∧
    Examines (during .inStartcodeStopbits 16 0 0#8 (-1) [0x00#8] 0) .inStartcodeStopbits 0x00#8 ∧
    fallingEdge 0x00#8 = some 8 := by
  unfold Examines; decide

theorem test_witness_DsbPrevTestsThePreviousByte :
    1 ≤ wPrev4.pc ∧ wPrev4.pc ≤ wPrev4.size ∧ Memory.read wPrev4.chunk (wPrev4.pc - 1) = some 0xF0#8 ∧
    Examines wPrev4 .inDataStartbit 0x00#8 ∧ 4 ≤ wPrev4.sbc := by
  unfold Examines; decide

theorem test_witness_DsbCurTestsTheCurrentByte :
    let s := during .inDataStartbit 3 0 0#8 (-1) [0xF8#8, 0x80#8] 1
    Examines s .inDataStartbit 0x80#8 ∧ s.sbc < 4 := by
  unfold Examines; decide

theorem test_witness_DbBitOrsInOneBit :
    let s := during .inDataBits 6 7 0#8 (-1) [0x80#8] 0
    Examines s .inDataBits 0x80#8 ∧ s.sbc < 7 := by
  unfold Examines; decide

theorem test_witness_DbLastSeedsTheStopBits :
    let s := fun sp => during .inDataBits 7 sp 0#8 (-1) [0x80#8] 0
    4 ≤ (s 4).sp ∧ (s 3).sp < 4 ∧ Examines (s 4) .inDataBits 0x80#8 ∧ (s 4).sbc = 7 := by
  unfold Examines; decide

theorem test_witness_DspEarlyFillsAndCloses :
    let s := fun cc => during .inDataStopbits 11 4 0#8 cc [0x00#8] 0
    (-1 ≤ (s (-1)).cc) ∧ (s 510).cc ≤ 510 ∧ -1 ≤ (s 510).cc ∧ (s (-1)).cc ≤ 510 ∧
    Examines (s 510) .inDataStopbits 0x00#8 ∧ (s 510).sbc ≤ 11 ∧ (s 510).val = 0#8 := by
  unfold Examines; decide

theorem test_witness_DspFallAcceptsOrAborts :
    let s := fun cc => during .inDataStopbits 12 4 0#8 cc [0x00#8] 0
    (-1 ≤ (s (-1)).cc) ∧ (s (-1)).cc ≤ 510 ∧ -1 ≤ (s 510).cc ∧ (s 510).cc ≤ 510 ∧
    Examines (s 510) .inDataStopbits 0x00#8 ∧ fallingEdge 0x00#8 = some 8 ∧
    ¬(0x00#8 = 0x00#8 ∧ (s 510).sbc ≤ 11 ∧ (s 510).val = 0#8) := by
  unfold Examines; decide

theorem test_witness_DspAltIsABoundaryOfSeven :
    let s := during .inDataStopbits 15 4 0#8 510 [0x01#8] 0
    (-1 ≤ s.cc) ∧ s.cc ≤ 510 ∧ Examines s .inDataStopbits 0x01#8 := by
  unfold Examines; decide

theorem test_witness_DspNoiseCompletesAndAborts :
    Examines (during .inDataStopbits 20 4 0#8 1 [0x7E#8] 0) .inDataStopbits 0x7E#8 ∧ 0x7E#8 ≠ 0xFF#8 ∧
    fallingEdge 0x7E#8 = none ∧ 0x7E#8 ≠ 0x01#8 := by
  unfold Examines; decide

theorem test_witness_ConstructBindsAndResets : State.reset.busy = false := rfl

/-- A chunk that a four-bit cursor just holds: 14 bytes, since `size + 1` must fit. -/
theorem test_witness_ParseBeginStartsACall :
    let bytes := List.replicate 14 0x00#8
    (narrow State.reset).busy = false ∧ Readable (cells 0 bytes) 14 ∧
      cursorHolds (narrow State.reset).widths.cursor 14 = true := by
  unfold Readable; decide

theorem test_witness_ParseEndCompletesInTheDataRegion :
    let s := during .inDataStopbits 8 0 0#8 0 [0x00#8] 2
    s.busy = true ∧ s.size ≤ s.pc := by decide

theorem test_witness_HostCommandsAreRefusedDuringACall : wScan.busy = true := rfl

theorem test_witness_AccessesOutsideTheMemoriesStop :
    (during .inDataStartbit 8 0 0#8 0 [] 0).pc = 0 ∧
    (during .inDataStartbit 8 0 0#8 0 [] 1).size < (during .inDataStartbit 8 0 0#8 0 [] 1).pc ∧
    (during .inDataStopbits 15 4 0#8 (-2) [] 0).cc < -1 ∧ 510 < (during .inDataStopbits 15 4 0#8 511 [] 0).cc ∧
    15 < 15 + (8 - 7) ∧ 15 < 15 + 1 := by decide

theorem test_witness_DecodeOfEncodeIsTheOperation :
    ((Instr.dspFall 8).wellFormed = true ∧ (Instr.dspFall 8).enabled 12 0#8 = true) ∧
    (Instr.dspEarly.wellFormed = true ∧ Instr.dspEarly.enabled 11 0#8 = true) ∧
    ((Instr.dsbPrev 0#8).wellFormed = true ∧ (Instr.dsbPrev 0#8).enabled 4 0#8 = true) := by decide

theorem test_witness_EncodeOfDecodeIsTheWord : decodeStep 12 0#8 0x800#12 = some (.dspFall 8) := by decide

theorem test_witness_EveryStepKeepsTheInvariant :
    (∃ t, wScan.Inv ∧ step wScan = .next t) ∧ (∃ t, wBreak.Inv ∧ step wBreak = .next t) ∧
    (∃ t, wPrev8.Inv ∧ step wPrev8 = .next t) :=
  ⟨⟨_, wScan_inv, rfl⟩, ⟨_, wBreak_inv, rfl⟩, ⟨_, wPrev8_inv, rfl⟩⟩

theorem test_witness_NoStepStopsUnderTheInvariant : wPrev4.Inv := wPrev4_inv

theorem test_witness_LookBackFindsAValidStartBit :
    (wPrev4.Inv ∧ Examines wPrev4 .inDataStartbit 0x00#8 ∧ 4 ≤ wPrev4.sbc) ∧
    (wPrev8.Inv ∧ Examines wPrev8 .inDataStartbit 0x00#8 ∧ 4 ≤ wPrev8.sbc) ∧
    (wPrevAlt.Inv ∧ Examines wPrevAlt .inDataStartbit 0xFF#8 ∧ 4 ≤ wPrevAlt.sbc) :=
  ⟨⟨wPrev4_inv, by unfold Examines; decide⟩, ⟨wPrev8_inv, by unfold Examines; decide⟩,
    ⟨wPrevAlt_inv, by unfold Examines; decide⟩⟩

theorem test_witness_ChannelCountOnlyFallsAtTheBreak :
    ∃ t, Examines wBreak .inBreak 0x00#8 ∧ step wBreak = .next t ∧ t.state = .waitForMab :=
  ⟨_, by unfold Examines; decide, rfl, rfl⟩

theorem test_witness_StepOperationsKeepTheBindings :
    ∃ t, isStepOp .dspAlt = true ∧ exec .dspAlt (during .inDataStopbits 15 4 0#8 510 [] 0) = .next t := ⟨_, rfl, rfl⟩

theorem test_witness_NonStoringOperationsKeepTheSink :
    (∃ t, storesToSink .dspOnes = false ∧ exec .dspOnes wStop = .next t) ∧
    (∃ t, storesToSink (.construct false 1 true) = false ∧ exec (.construct false 1 true) State.reset = .next t) :=
  ⟨⟨_, rfl, rfl⟩, ⟨_, rfl, rfl⟩⟩

theorem test_witness_SlotBoundaryWritesOneSlot :
    (∃ t, exec (.dspFall 8) (during .inDataStopbits 16 4 0#8 510 [] 0) = .next t) ∧
    (∃ t, exec (.dspFall 8) (during .inDataStopbits 15 4 0#8 (-1) [] 0) = .next t) ∧
    (∃ t, exec .dspAlt (during .inDataStopbits 15 4 0#8 (-1) [] 0) = .next t) :=
  ⟨⟨_, rfl⟩, ⟨_, rfl⟩, ⟨_, rfl⟩⟩

theorem test_witness_EarlyTerminationClearsTheRest :
    (∃ t, exec .dspEarly (during .inDataStopbits 11 4 0#8 510 [] 0) = .next t) ∧
    (∃ t, exec .dspEarly (during .inDataStopbits 11 4 0#8 (-1) [] 0) = .next t) :=
  ⟨⟨_, rfl⟩, ⟨_, rfl⟩⟩

theorem test_witness_OnlyTheNamedOperationsWriteTheRegisters :
    ∃ t, exec .mabOnes wScan = .next t ∧ writesSp .mabOnes = false ∧ writesVal .mabOnes = false ∧
      writesCc .mabOnes = false := ⟨_, rfl, rfl, rfl, rfl⟩

theorem test_witness_PcAdvancesByTheTable :
    (∃ t, isStepOp (.dsbPrev 0#8) = true ∧ exec (.dsbPrev 0#8) wPrev4 = .next t) ∧
    (∃ t, isStepOp (.dbLast 0#8) = true ∧ exec (.dbLast 0#8) (during .inDataBits 7 3 0#8 (-1) [] 0) = .next t) ∧
    (∃ t, isStepOp (.dbLast 0#8) = true ∧ exec (.dbLast 0#8) (during .inDataBits 7 4 0#8 (-1) [] 0) = .next t) :=
  ⟨⟨_, rfl, rfl⟩, ⟨_, rfl, rfl⟩, ⟨_, rfl, rfl⟩⟩

theorem test_witness_EventsAreThoseOfTheOperation :
    (∃ t, exec (.dspFall 8) (during .inDataStopbits 16 4 0#8 510 [] 0) = .next t) ∧
    (∃ t, exec .parseEnd (during .inDataBits 0 4 0#8 0 [] 0) = .next t) := ⟨⟨_, rfl⟩, ⟨_, rfl⟩⟩

theorem test_witness_ACompletionLeavesTheDataRegion :
    ∃ t, Examines (during .inDataStopbits 20 4 0#8 510 [0x00#8] 0) .inDataStopbits 0x00#8 ∧
      step (during .inDataStopbits 20 4 0#8 510 [0x00#8] 0) = .next t ∧ OutEvent.complete ∈ t.outputs :=
  ⟨_, by unfold Examines; decide, rfl, by decide⟩

theorem test_witness_OnlyTheTransitionsOfTheTable :
    ∃ t, Examines wBreak .inBreak 0x00#8 ∧ step wBreak = .next t := ⟨_, by unfold Examines; decide, rfl⟩

theorem test_witness_LossOfLockKeepsTheRegisters :
    (∃ t, Examines (during .inDataStopbits 20 4 0#8 1 [0x7E#8] 0) .inDataStopbits 0x7E#8 ∧
      step (during .inDataStopbits 20 4 0#8 1 [0x7E#8] 0) = .next t ∧ t.state = .waitForBreak) ∧
    (∃ t, Examines (during .inDataStartbit 3 0 0#8 1 [0xF8#8, 0x80#8] 1) .inDataStartbit 0x80#8 ∧
      step (during .inDataStartbit 3 0 0#8 1 [0xF8#8, 0x80#8] 1) = .next t ∧ t.state = .waitForBreak) ∧
    (∃ t, Examines (during .inDataStartbit 4 0 0#8 1 [0xFF#8, 0x80#8] 1) .inDataStartbit 0x80#8 ∧
      step (during .inDataStartbit 4 0 0#8 1 [0xFF#8, 0x80#8] 1) = .next t ∧ t.state = .waitForBreak) :=
  ⟨⟨_, by unfold Examines; decide, rfl, rfl⟩, ⟨_, by unfold Examines; decide, rfl, rfl⟩,
    ⟨_, by unfold Examines; decide, rfl, rfl⟩⟩

theorem test_witness_EarlyTerminationNeedsTheFirstByte :
    ∃ t, wStop.Inv ∧ Examines wStop .inDataStopbits 0xFF#8 ∧ step wStop = .next t :=
  ⟨_, wStop_inv, by unfold Examines; decide, rfl⟩

theorem test_witness_ScanningPassesOverAnyLine :
    wScan.busy = true ∧ wScan.state = .waitForBreak ∧ NextBytes wScan [0xFF#8, 0x7E#8] ∧
    ∀ b, b ∈ [0xFF#8, 0x7E#8] → fallingEdge b = none :=
  ⟨rfl, rfl, nextBytes_of_reads (by decide) (by decide), by decide⟩

theorem test_witness_ZeroBytesMeasureTheBreak :
    (WidthsOk Config.resetWidths ∧ WidthsOk (narrow State.reset).widths) ∧
    (let s := during .inBreak 149 0 0#8 (-1) [0x00#8, 0x00#8] 0; s.busy = true ∧ s.state = .inBreak ∧ s.sbc ≤ 165 ∧ NextBytes s (List.replicate 2 0x00#8) ∧ s.sbc + 8 * 2 ≤ 165) ∧
    (let s := during .inBreak 150 0 0#8 (-1) [0x00#8, 0x00#8] 0; s.busy = true ∧ s.state = .inBreak ∧ s.sbc ≤ 165 ∧ NextBytes s (List.replicate 2 0x00#8) ∧ 165 < s.sbc + 8 * 2) :=
  ⟨⟨fun _ h => (nomatch h), fun _ h => by cases h; decide⟩,
    ⟨rfl, rfl, by decide, nextBytes_of_reads (by decide) (by decide), by decide⟩,
    ⟨rfl, rfl, by decide, nextBytes_of_reads (by decide) (by decide), by decide⟩⟩

theorem test_witness_EightBytesAssembleTheValue :
    let bs := [0x1F#8, 0xE0#8, 0x1F#8, 0xE0#8, 0x00#8, 0x1F#8, 0xE0#8, 0x1F#8]
    let s := during .inDataBits 0 1 0#8 (-1) bs 0
    s.busy = true ∧ s.state = .inDataBits ∧ s.sbc = 0 ∧ s.val = 0#8 ∧ bs.length = 8 ∧ NextBytes s bs :=
  ⟨rfl, rfl, rfl, rfl, rfl, nextBytes_of_reads (by decide) (by decide)⟩

/-- A slot boundary on the byte grid before the slots `vs`. -/
def wSlots (cc : Int) (vs : List Byte) : State := during .inDataStartbit 8 0 0#8 cc (0x00#8 :: vs.flatMap slotBytes) 1

theorem test_witness_AnAlignedSlotIsWritten :
    (let s := wSlots (-1) [0xA5#8]; WidthsOk s.widths ∧ s.busy = true ∧ s.state = .inDataStartbit ∧ s.sbc = 8 ∧ 1 ≤ s.pc ∧ Memory.read s.chunk (s.pc - 1) = some 0x00#8 ∧
      NextBytes s (slotBytes 0xA5#8) ∧ -1 ≤ s.cc ∧ s.cc ≤ 509) ∧ (wSlots 509 [0xA5#8]).cc ≤ 509 :=
  ⟨⟨fun _ h => (nomatch h), rfl, rfl, rfl, by decide, by decide, nextBytes_of_reads (by decide) (by decide), by decide,
    by decide⟩, by decide⟩

theorem test_witness_ConsecutiveSlotsFillTheSink :
    let vs := [0xA5#8, 0x00#8]
    let s := wSlots 508 vs
    WidthsOk s.widths ∧ s.busy = true ∧ s.state = .inDataStartbit ∧ s.sbc = 8 ∧ 1 ≤ s.pc ∧ Memory.read s.chunk (s.pc - 1) = some 0x00#8 ∧
      NextBytes s (vs.flatMap slotBytes) ∧ -1 ≤ s.cc ∧ s.cc + vs.length ≤ 510 :=
  ⟨fun _ h => (nomatch h), rfl, rfl, rfl, by decide, by decide, nextBytes_of_reads (by decide) (by decide), by decide,
    by decide⟩

theorem test_witness_AnEmptyCallIsSilent :
    let q := parseOf []
    (afterV4 q).busy = false ∧ (afterV4 q).requests = q :: [] ∧ q.rst = false ∧ q.start = true ∧ q.size = 0 ∧
      cursorHolds (afterV4 q).widths.cursor 0 = true := by decide

theorem test_witness_EveryCallEndsInTime : wScan.Inv ∧ wScan.busy = true := ⟨wScan_inv, rfl⟩

theorem test_witness_OutputsDoNotDependOnEarlierCalls :
    let u := { wScan with sp := 3, val := 0xAA#8, cc := 17, sinkRef := 4, callbackPresent := true }
    ∃ t, wScan.state = .waitForBreak ∧ u.state = .waitForBreak ∧ u.pc = wScan.pc ∧ u.busy = wScan.busy ∧
      u.chunk = wScan.chunk ∧ u.size = wScan.size ∧ u.requests = wScan.requests ∧ u.widths = wScan.widths ∧
      steps 2 wScan = .next t :=
  ⟨_, rfl, rfl, rfl, rfl, rfl, rfl, rfl, rfl, rfl⟩

theorem test_witness_ASaturatingCountGivesTheSameRun :
    ∃ t, 8 ≤ 8 ∧ wBreak.widths.sbc = none ∧ wBreak.Inv ∧ steps 2 wBreak = .next t :=
  ⟨_, by decide, rfl, wBreak_inv, rfl⟩

theorem test_witness_StepRefusesWhatTheSpecRefuses :
    (let s := { wScan with chunk := [] }; s.busy = true ∧ s.pc < s.size ∧ Memory.read s.chunk s.pc = none) ∧
    (let s := during .inDataBits 8 0 0#8 (-1) [0x00#8] 0; Examines s .inDataBits 0x00#8 ∧ 7 < s.sbc) := by
  unfold Examines; decide

theorem test_witness_UnfitChunksStartNoCall :
    ((narrow State.reset).busy = false ∧ cursorHolds (narrow State.reset).widths.cursor 14 = true ∧
      ¬Readable (cells 0 [0x00#8]) 14) ∧
    ((narrow State.reset).widths.cursor = some 4 ∧ 2 ^ 4 ≤ 15 + 1) := by
  unfold Readable; decide

/-- A chunk that lacks only the byte DB.LAST would skip starts no call (R174, R236 row 6). -/
theorem test_unread_byte_is_missed :
    seen (exec (.parseBegin [(0, 0x00#8), (2, 0xFF#8)] 3) State.reset) = none := by decide

end Sys2Proof.Tests
end

/-! What every operation leaves unchanged and what it emits: the inversion of `exec` for the operations that a byte selects,
and the frames that follow from it (O38, O44). -/

namespace Sys2Proof.Proofs

open Sys2Proof.Machine Sys2Proof.Claims

/-! ### The state without its registers -/

/-- The state with the six registers of R21 to R26 cleared: the bindings, the memories, the events, the requests and the
widths are left. -/
def unregistered (s : State) : State :=
  { s with state := .waitForBreak, pc := 0, sbc := 0, sp := 0, val := 0#8, cc := 0 }

@[simp] theorem unregistered_changeState (st : LineState) (s : State) :
    unregistered (changeState st s) = unregistered s := rfl
@[simp] theorem unregistered_enterWith (st : LineState) (v : Nat) (s : State) :
    unregistered (enterWith st v s) = unregistered s := rfl
@[simp] theorem unregistered_advance (n : Nat) (s : State) : unregistered (advance n s) = unregistered s := rfl
@[simp] theorem unregistered_accumulate (s : State) : unregistered (accumulate s) = unregistered s := rfl
@[simp] theorem unregistered_lockLoss (c : LockLossCause) (s : State) :
    unregistered (lockLoss c s) = unregistered s := rfl
@[simp] theorem unregistered_checkStartBit (bit : Byte) (p : Nat) (s : State) :
    unregistered (checkStartBit bit p s) = unregistered s := by
  obtain ⟨-, h⟩ | ⟨-, h⟩ := checkStartBit_cases bit p s <;> rw [h] <;> rfl

/-- Two states that agree without their registers agree in every other field. -/
theorem fields_of_unregistered_eq {s t : State} (h : unregistered t = unregistered s) :
    (t.chunk = s.chunk ∧ t.size = s.size ∧ t.busy = s.busy ∧ t.sinkRef = s.sinkRef ∧
      t.callbackPresent = s.callbackPresent ∧ t.requests = s.requests ∧ t.widths = s.widths) ∧
    t.sinks = s.sinks ∧ t.outputs = s.outputs ∧ t.invocations = s.invocations := by
  simp only [unregistered, State.mk.injEq] at h
  tauto

/-! ### What the operations that emit something can do -/

/-- A slot boundary that goes on ends in the state that R183 to R185 name. -/
theorem slotBoundary_eq_boundary {z : Nat} {s t : State} (h : slotBoundary z s = .next t) : t = boundary z s := by
  obtain ⟨hs, rfl⟩ | ⟨hs, u, hu, rfl⟩ := slotBoundary_eq_next h
  · exact (if_pos hs).symm
  · obtain ⟨-, -, rfl⟩ := acceptChannel_eq_next hu
    have hs' : ¬s.sbc + (8 - z) ≤ 15 := not_le.2 hs
    rw [boundary, if_neg hs', afterAccept]
    by_cases hc : s.cc + 1 = 511
    · rw [if_pos hc, if_pos hc]; rfl
    · rw [if_neg hc, if_neg hc]; rfl

/-- Everything DSP.EARLY that goes on has checked and done (R182). -/
theorem execDspEarly_eq_next {s t : State} (h : execDspEarly s = .next t) :
    -1 ≤ s.cc ∧ s.cc ≤ 510 ∧ t = { completed s with
      sinks := Memory.fill s.sinks (slotAddr s.sinkRef (s.cc + 1).toNat) 0#8 (511 - s.cc).toNat
      outputs := s.outputs ++ eventsOf .dspEarly s
      state := .inBreak, sbc := 80, cc := 511, pc := s.pc + 1 } := by
  obtain ⟨u, hu, ht⟩ := andThen_eq_next.1 h
  obtain ⟨h0, h1, -, -, rfl⟩ := sinkFill_eq_next hu
  cases ht
  refine ⟨by omega, by omega, ?_⟩
  simp only [advance, enterWith, changeState, complete, completed, eventsOf, List.append_assoc]
  rfl

/-- Everything CONSTRUCT that goes on has checked and done (R110, R230). -/
theorem execConstruct_eq_next {sink : Nat} {cb : Bool} {s t : State} (h : execConstruct sink cb s = .next t) :
    s.busy = false ∧ t = { s with
      sinkRef := sink, callbackPresent := cb, state := .waitForBreak, pc := 0, sbc := 0, sp := 0, val := 0#8,
      cc := -1, chunk := [], size := 0 } := by
  unfold execConstruct at h
  split at h
  · cases h
  · next hb =>
    cases h
    exact ⟨by simpa using hb, rfl⟩

/-- PARSE.END goes on in every state (R114). -/
theorem execParseEnd_eq (s : State) :
    execParseEnd s = .next { (if inDataRegion s.state then complete s else s) with busy := false, chunk := [], size := 0 } :=
  rfl

/-- DB.LAST goes on in every state; what it skips depends on the sampling position (R174). -/
theorem execDbLast_eq (byte : Byte) (s : State) :
    execDbLast byte s = .next (advance (if 4 ≤ s.sp then 1 else 2)
      (enterWith .inDataStopbits (if 4 ≤ s.sp then s.sp else s.sp + 8) { s with val := orDataBit s.val byte s.sp 7 })) := by
  simp only [execDbLast, lateSample_iff]
  split <;> rfl

/-- Everything an operation that a byte selects can do outside the registers: nothing at all and no event, a slot boundary,
an early termination, or a completion with the loss of lock. -/
theorem exec_stepOp_cases {i : Instr} {s t : State} (hop : isStepOp i = true) (h : exec i s = .next t) :
    (eventsOf i s = [] ∧ unregistered t = unregistered s) ∨
    (∃ z, eventsOf i s = boundaryEvents z s ∧ t = boundary z s) ∨
    (i = .dspEarly ∧ execDspEarly s = .next t) ∨
    (eventsOf i s = [.complete] ∧ t = advance 1 (lockLoss .dspNoedge (complete s))) := by
  cases i with
  | wfbFall | wfbScan | brkZero | brkAbort | wfmHold | wfmRise | wfmAbort | mabOnes | mabFall | mabNoise
  | scZero | scRise | scNoise | scsOnes | scsFall | scsNoise | dsbCur | dspOnes =>
    cases h
    exact .inl ⟨rfl, by simp [apply_ite unregistered]⟩
  | dbBit byte =>
    cases h
    exact .inl ⟨rfl, rfl⟩
  | dbLast byte =>
    cases (execDbLast_eq byte s).symm.trans h
    exact .inl ⟨rfl, rfl⟩
  | dsbPrev byte =>
    obtain ⟨prev, -, -, -, hk⟩ := readCap_eq_next h
    cases hk
    exact .inl ⟨rfl, by simp⟩
  | dspFall z => exact .inr (.inl ⟨z, rfl, slotBoundary_eq_boundary h⟩)
  | dspAlt => exact .inr (.inl ⟨7, rfl, slotBoundary_eq_boundary h⟩)
  | dspEarly => exact .inr (.inr (.inl ⟨rfl, h⟩))
  | dspNoise byte =>
    cases h
    exact .inr (.inr (.inr ⟨rfl, rfl⟩))
  | construct | parseBegin | parseEnd => cases hop

/-! ### The frame of the bindings (O38) -/

/-- A slot boundary changes no binding. -/
theorem boundary_bindings (z : Nat) (s : State) :
    (boundary z s).chunk = s.chunk ∧ (boundary z s).size = s.size ∧ (boundary z s).busy = s.busy ∧
    (boundary z s).sinkRef = s.sinkRef ∧ (boundary z s).callbackPresent = s.callbackPresent ∧
    (boundary z s).requests = s.requests ∧ (boundary z s).widths = s.widths := by
  unfold boundary
  split
  · exact ⟨rfl, rfl, rfl, rfl, rfl, rfl, rfl⟩
  · split <;> exact ⟨rfl, rfl, rfl, rfl, rfl, rfl, rfl⟩

/-- Settles O38: each of the four kinds of operation that `exec_stepOp_cases` tells apart leaves the bindings. -/
theorem stepOperationsKeepTheBindings : Obligations.StepOperationsKeepTheBindings := by
  intro i s t hop h
  obtain ⟨-, hreg⟩ | ⟨z, -, rfl⟩ | ⟨-, hearly⟩ | ⟨-, rfl⟩ := exec_stepOp_cases hop h
  · exact (fields_of_unregistered_eq hreg).1
  · exact boundary_bindings z s
  · obtain ⟨-, -, rfl⟩ := execDspEarly_eq_next hearly
    exact ⟨rfl, rfl, rfl, rfl, rfl, rfl, rfl⟩
  · exact ⟨rfl, rfl, rfl, rfl, rfl, rfl, rfl⟩

/-! ### The events (O44) -/

/-- No events, no invocation of the callback. -/
@[simp] theorem invocationsOf_nil (s : State) : invocationsOf s [] = 0 := ite_self 0

/-- One completion is one invocation if a callback is bound (R116). -/
theorem complete_invocations_eq_add (s : State) :
    (complete s).invocations = s.invocations + invocationsOf s [.complete] := by
  rw [complete_invocations, invocationsOf, List.count_singleton_self]
  split <;> rfl

/-- A write of a slot invokes no callback. -/
@[simp] theorem invocationsOf_sinkSet_cons (s : State) (k : BitVec 9) (v : Byte) (es : List OutEvent) :
    invocationsOf s (.sinkSet k v :: es) = invocationsOf s es := by
  simp [invocationsOf]

/-- A fill invokes no callback. -/
@[simp] theorem invocationsOf_sinkFill_cons (s : State) (k : BitVec 9) (v : Byte) (n : BitVec 10) (es : List OutEvent) :
    invocationsOf s (.sinkFill k v n :: es) = invocationsOf s es := by
  simp [invocationsOf]

/-- A slot boundary emits its events and invokes the callback for the completion among them (R183 to R185). -/
theorem boundary_events (z : Nat) (s : State) :
    (boundary z s).outputs = s.outputs ++ boundaryEvents z s ∧
    (boundary z s).invocations = s.invocations + invocationsOf s (boundaryEvents z s) := by
  unfold boundary boundaryEvents
  split
  · exact ⟨rfl, complete_invocations_eq_add s⟩
  · rw [invocationsOf_sinkSet_cons]
    split
    · exact ⟨List.append_assoc .., complete_invocations_eq_add s⟩
    · exact ⟨rfl, by rw [invocationsOf_nil]; rfl⟩

/-- PARSE.END emits the completion exactly in the data region (R114). -/
theorem execParseEnd_events {s t : State} (h : execParseEnd s = .next t) :
    t.outputs = s.outputs ++ eventsOf .parseEnd s ∧
    t.invocations = s.invocations + invocationsOf s (eventsOf .parseEnd s) := by
  cases (execParseEnd_eq s).symm.trans h
  simp only [eventsOf, inDataRegion_iff]
  split
  · exact ⟨rfl, complete_invocations_eq_add s⟩
  · exact ⟨(List.append_nil _).symm, by rw [invocationsOf_nil]; rfl⟩

/-- Settles O44: the operations a byte selects by `exec_stepOp_cases`, the three others one by one. -/
theorem eventsAreThoseOfTheOperation : Obligations.EventsAreThoseOfTheOperation := by
  intro i s t h
  by_cases hop : isStepOp i = true
  · obtain ⟨hev, hreg⟩ | ⟨z, hev, rfl⟩ | ⟨rfl, hearly⟩ | ⟨hev, rfl⟩ := exec_stepOp_cases hop h
    · obtain ⟨-, -, hout, hinv⟩ := fields_of_unregistered_eq hreg
      rw [hev, hout, hinv]
      simp
    · rw [hev]
      exact boundary_events z s
    · obtain ⟨-, -, rfl⟩ := execDspEarly_eq_next hearly
      exact ⟨rfl, by rw [eventsOf, invocationsOf_sinkFill_cons]; exact complete_invocations_eq_add s⟩
    · rw [hev]
      exact ⟨rfl, complete_invocations_eq_add s⟩
  · cases i with
    | construct start sink cb =>
      obtain ⟨-, rfl⟩ := execConstruct_eq_next h
      simp [eventsOf]
    | parseBegin chunk size =>
      obtain ⟨-, -, -, rfl⟩ := execParseBegin_eq_next h
      simp [eventsOf]
    | parseEnd => exact execParseEnd_events h
    | _ => exact absurd rfl hop

end Sys2Proof.Proofs

/-! The inversion of the dispatch (R88, R89, R99, R112): what it can select, and what that says of the state, for the proofs
that go by the step (O34, O57). -/

namespace Sys2Proof.Proofs

open Sys2Proof.Machine Sys2Proof.Claims

/-! ### What the dispatch selects -/

/-- What the selection of an operation says about the state it is selected in, the byte and `sbc`: the rows of R89, without
the negated conditions of the rows before. -/
inductive Selects (sbc : Nat) : LineState → Byte → Instr → Prop where
  | wfbFall {b : Byte} {z : Nat} (edge : fallingEdge b = some z) : Selects sbc .waitForBreak b (.wfbFall z)
  | wfbScan {b : Byte} : Selects sbc .waitForBreak b (.wfbScan b)
  | brkZero {b : Byte} : Selects sbc .inBreak b .brkZero
  | brkAbort {b : Byte} : Selects sbc .inBreak b (.brkAbort b)
  | wfmHold {b : Byte} : Selects sbc .waitForMab b .wfmHold
  | wfmRise {b : Byte} {o : Nat} (edge : risingEdge b = some o) : Selects sbc .waitForMab b (.wfmRise o)
  | wfmAbort {b : Byte} : Selects sbc .waitForMab b (.wfmAbort b)
  | mabOnes {b : Byte} : Selects sbc .inMab b .mabOnes
  | mabFall {b : Byte} {z : Nat} (edge : fallingEdge b = some z) : Selects sbc .inMab b (.mabFall z)
  | mabNoise {b : Byte} : Selects sbc .inMab b (.mabNoise b)
  | scZero {b : Byte} : Selects sbc .inStartcode b .scZero
  | scRise {b : Byte} {o : Nat} (edge : risingEdge b = some o) : Selects sbc .inStartcode b (.scRise o)
  | scNoise {b : Byte} : Selects sbc .inStartcode b (.scNoise b)
  | scsOnes {b : Byte} : Selects sbc .inStartcodeStopbits b .scsOnes
  | scsFall {b : Byte} {z : Nat} (edge : fallingEdge b = some z) : Selects sbc .inStartcodeStopbits b (.scsFall z)
  | scsNoise {b : Byte} : Selects sbc .inStartcodeStopbits b (.scsNoise b)
  | dsbPrev {b : Byte} (late : 4 ≤ sbc) : Selects sbc .inDataStartbit b (.dsbPrev b)
  | dsbCur {b : Byte} (early : sbc < 4) : Selects sbc .inDataStartbit b (.dsbCur b)
  | dbBit {b : Byte} (more : sbc < 7) : Selects sbc .inDataBits b (.dbBit b)
  | dbLast {b : Byte} (last : sbc = 7) : Selects sbc .inDataBits b (.dbLast b)
  | dspOnes {b : Byte} : Selects sbc .inDataStopbits b .dspOnes
  | dspEarly {b : Byte} : Selects sbc .inDataStopbits b .dspEarly
  | dspFall {b : Byte} {z : Nat} (edge : fallingEdge b = some z) : Selects sbc .inDataStopbits b (.dspFall z)
  | dspAlt : Selects sbc .inDataStopbits 0x01#8 .dspAlt
  | dspNoise {b : Byte} : Selects sbc .inDataStopbits b (.dspNoise b)

/-- The ordered tests of R89 select by the rows of `Selects`. -/
theorem selects_of_decodeByte {sbc : Nat} {val b : Byte} {st : LineState} {i : Instr}
    (h : decodeByte sbc val st b = some i) : Selects sbc st b i := by
  cases st with
  | waitForBreak =>
    cases h
    unfold decodeWaitForBreak
    split
    · exact .wfbFall ‹_›
    · exact .wfbScan
  | inBreak =>
    cases h
    unfold decodeInBreak
    split
    · exact .brkZero
    · exact .brkAbort
  | waitForMab =>
    cases h
    unfold decodeWaitForMab
    split
    · exact .wfmHold
    · split
      · exact .wfmRise ‹_›
      · exact .wfmAbort
  | inMab =>
    cases h
    unfold decodeInMab
    split
    · exact .mabOnes
    · split
      · exact .mabFall ‹_›
      · exact .mabNoise
  | inStartcode =>
    cases h
    unfold decodeInStartcode
    split
    · exact .scZero
    · split
      · exact .scRise ‹_›
      · exact .scNoise
  | inStartcodeStopbits =>
    cases h
    unfold decodeInStartcodeStopbits
    split
    · exact .scsOnes
    · split
      · exact .scsFall ‹_›
      · exact .scsNoise
  | inDataStartbit =>
    cases h
    simp only [decodeInDataStartbit, startSampleInPrev_iff]
    split
    · exact .dsbPrev ‹_›
    · exact .dsbCur (by omega)
  | inDataBits =>
    simp only [decodeByte, decodeInDataBits] at h
    split at h
    · cases h
      exact .dbBit ‹_›
    · split at h
      · cases h
        exact .dbLast ‹_›
      · cases h
  | inDataStopbits =>
    cases h
    unfold decodeInDataStopbits
    split
    · exact .dspOnes
    · split
      · exact .dspEarly
      · split
        · exact .dspFall ‹_›
        · split
          · next hb =>
            subst hb
            exact .dspAlt
          · exact .dspNoise

/-- A byte selects only operations of format STEP. -/
theorem Selects.isStepOp {sbc : Nat} {st : LineState} {b : Byte} {i : Instr} (h : Selects sbc st b i) :
    isStepOp i = true := by
  cases h <;> rfl

/-- A step word selects what its state and its byte select (R88). -/
theorem decodeStep_stepWord (sbc : Nat) (val : Byte) (st : LineState) (b : Byte) :
    decodeStep sbc val (stepWord st b) = decodeByte sbc val st b := by
  simp only [decodeStep, Laws.wordCode_stepWord, Laws.stateOfCode_stateCode, Laws.wordByte_stepWord]

/-- What the dispatch of a state can select: by a byte, by the end of the chunk or by a request. -/
inductive Dispatched (s : State) : Instr → Prop where
  | byte {b : Byte} {i : Instr} (examines : Examines s s.state b) (selects : Selects s.sbc s.state b i) : Dispatched s i
  | callEnd (busy : s.busy = true) (used : s.size ≤ s.pc) : Dispatched s .parseEnd
  | construct {q : HostRequest} (pending : q ∈ s.requests) (idle : s.busy = false) :
      Dispatched s (.construct q.start q.sink q.callbackPresent)
  | parseBegin {q : HostRequest} (pending : q ∈ s.requests) (idle : s.busy = false) :
      Dispatched s (.parseBegin q.chunk q.size)

/-- R99, R112, R113: whatever the fetched word selects is dispatched by a byte, by the end of the chunk or by a request. -/
theorem dispatched_of_fetch {s : State} {f : FetchWord} {i : Instr} (hf : fetch s = .word f)
    (hi : decode s.sbc s.val f = some i) : Dispatched s i := by
  unfold fetch at hf
  split at hf
  · next hbusy =>
    split at hf
    · next hpc =>
      split at hf
      · next b hread =>
        cases hf
        rw [decode, decodeStep_stepWord] at hi
        exact .byte ⟨hbusy, hpc, rfl, hread⟩ (selects_of_decodeByte hi)
      · cases hf
    · next hpc =>
      cases hf
      cases hi
      exact .callEnd hbusy (not_lt.1 hpc)
  · next hbusy =>
    have hidle : s.busy = false := by simpa using hbusy
    split at hf
    · cases hf
    · next q rest hreq =>
      have hq : q ∈ s.requests := hreq ▸ List.mem_cons_self
      split at hf
      · cases hf
        rw [decode, decodeHost] at hi
        split at hi
        · cases hi
          exact .construct hq hidle
        · split at hi
          · cases hi
            exact .parseBegin hq hidle
          · cases hi
      · cases hf

end Sys2Proof.Proofs

/-! The invariant (O34): bounds of the operands, and the part of `State.Inv` that speaks of the registers. -/

namespace Sys2Proof.Proofs

open Sys2Proof.Machine Sys2Proof.Claims

/-! ### Bounds of the operands -/

/-- A falling edge has 1 to 8 low samples (R130). -/
theorem fallingEdge_bounds {b : Byte} {z : Nat} (h : fallingEdge b = some z) : 1 ≤ z ∧ z ≤ 8 := by
  unfold fallingEdge at h
  split at h <;> simp only [Option.some.injEq, reduceCtorEq] at h <;> omega

/-- A rising edge has 1 to 8 high samples (R131). -/
theorem risingEdge_bounds {b : Byte} {o : Nat} (h : risingEdge b = some o) : 1 ≤ o ∧ o ≤ 8 := by
  unfold risingEdge at h
  split at h <;> simp only [Option.some.injEq, reduceCtorEq] at h <;> omega

/-- Data bit `k` ORed into a value of `k` bits gives one of `k + 1` bits (R92). -/
theorem orDataBit_lt {val : Byte} {k : Nat} (byte : Byte) (sp : Nat) (hv : val.toNat < 2 ^ k) (hk : k < 8) :
    (orDataBit val byte sp k).toNat < 2 ^ (k + 1) := by
  have hbit : ∀ c : Byte, c = 0#8 ∨ c = 1#8 → (c <<< k).toNat < 2 ^ (k + 1) := by
    rintro c (rfl | rfl)
    · simp
    · rw [BitVec.toNat_shiftLeft, BitVec.toNat_ofNat, Nat.shiftLeft_eq]
      have := Nat.pow_lt_pow_right (a := 2) (by decide) hk
      have := Nat.pow_lt_pow_succ (a := 2) (n := k) (by decide)
      rw [Nat.mod_eq_of_lt] <;> omega
  rw [orDataBit, BitVec.toNat_or]
  exact Nat.or_lt_two_pow (hv.trans (Nat.pow_lt_pow_succ (by decide))) (hbit _ (sample_zero_or_one byte sp))

/-- A saturated count fits its register (R105). -/
theorem saturate_lt (w n : Nat) : saturate (some w) n < 2 ^ w := by
  have := Nat.two_pow_pos w
  rw [saturate_some]
  omega

/-- A positive bound that eight bits hold is still passed after a saturated count (R105). -/
theorem le_saturate {width : Option Nat} {n k : Nat} (hw : ∀ w, width = some w → 8 ≤ w) (hk : k ≤ 255) (h : k ≤ n) :
    k ≤ saturate width n := by
  cases width with
  | none => exact h
  | some w =>
    have := Nat.pow_le_pow_right (n := 2) (by decide) (hw w rfl)
    rw [saturate_some]
    omega

/-! ### The part of the invariant that speaks of the registers -/

/-- What `State.Inv` says of the registers while a call is in progress. -/
structure RegistersOk (s : State) : Prop where
  count : CountInRange s
  channel : ChannelInRange s
  position : s.sp ≤ 7
  cursor : s.pc ≤ s.size ∨ (s.pc = s.size + 1 ∧ s.state = .inDataStopbits)
  edge : s.state = .inDataStartbit → EdgeByteBefore s
  countHeld : ∀ k, s.widths.sbc = some k → s.sbc < 2 ^ k

/-- A count that eight bits hold is held by every legal register (R10). -/
theorem countHeld_of_le {s : State} (hw : WidthsOk s.widths) (h : s.sbc ≤ 255) (k : Nat) (hk : s.widths.sbc = some k) :
    s.sbc < 2 ^ k := by
  have := Nat.pow_le_pow_right (n := 2) (by decide) (hw k hk)
  omega

/-- The registers after an operation that gives `sbc` a small value, outside IN_DATA_STARTBIT. -/
theorem registersOk_of_small {t : State} (hw : WidthsOk t.widths) (count : CountInRange t) (channel : ChannelInRange t)
    (position : t.sp ≤ 7) (cursor : t.pc ≤ t.size) (hst : t.state ≠ .inDataStartbit) (small : t.sbc ≤ 255) :
    RegistersOk t :=
  { count, channel, position
    cursor := .inl cursor
    edge := fun h => absurd h hst
    countHeld := countHeld_of_le hw small }

/-- In every state `cc` lies in -1 to 511 (R26). -/
theorem channel_bounds {s : State} (h : ChannelInRange s) : -1 ≤ s.cc ∧ s.cc ≤ 511 := by
  unfold ChannelInRange at h
  split at h <;> omega

section
variable {s : State} {b : Byte} (hi : s.Inv) (hpc : s.pc < s.size)
include hi hpc

/-- The registers after any loss of lock on a byte: at most the cursor and `sp` move (R200, R201). -/
theorem registersOk_lost {t : State} (hst : t.state = .waitForBreak) (hsbc : t.sbc = 0) (hcc : t.cc = s.cc)
    (hsp : t.sp ≤ 7) (htpc : t.pc ≤ s.pc + 1) (hsize : t.size = s.size) (hwidths : t.widths = s.widths) :
    RegistersOk t :=
  registersOk_of_small (hwidths ▸ hi.widthsOk) (by rw [CountInRange, hst]; exact hsbc)
    (by rw [ChannelInRange, hst, hcc]; exact channel_bounds hi.channel) hsp (by omega) (by simp [hst]) (by omega)

/-- The start-bit test at a position of a byte, which advances `pc` by 1 or not at all (R171, R172). -/
theorem registersOk_checkStartBit (hcc : s.cc ≤ 510) (bit : Byte) {p n : Nat} (hp : p ≤ 7) (hn : n ≤ 1) :
    RegistersOk (checkStartBit bit p (advance n s)) := by
  have hcursor : s.pc + n ≤ s.size := by omega
  obtain ⟨-, h⟩ | ⟨-, h⟩ := checkStartBit_cases bit p (advance n s) <;> rw [h]
  · exact registersOk_lost hi hpc rfl rfl rfl hp (Nat.add_le_add_left hn _) rfl rfl
  · exact registersOk_of_small hi.widthsOk ⟨Nat.zero_le _, Nat.one_pos⟩ ⟨(channel_bounds hi.channel).1, hcc⟩ hp
      hcursor nofun (Nat.zero_le _)

/-- Eight more samples of a level, which stay in the same state (R105). -/
theorem registersOk_accumulate (hst : s.state ≠ .inDataStartbit) (count : CountInRange (advance 1 (accumulate s))) :
    RegistersOk (advance 1 (accumulate s)) :=
  { count
    channel := hi.channel
    position := hi.position
    cursor := .inl hpc
    edge := fun h => absurd h hst
    countHeld := fun k hk => by
      rw [advance_sbc, accumulate_sbc, show s.widths.sbc = some k from hk]
      exact saturate_lt k _ }

/-- The entry into IN_DATA_STARTBIT on the edge byte that it looks back to (R170). -/
theorem registersOk_startbit {t : State} {z : Nat} (hread : Memory.read s.chunk s.pc = some b)
    (hz : fallingEdge b = some z ∨ (b = 0x01#8 ∧ z = 7)) (hstate : t.state = .inDataStartbit) (hsbc : t.sbc = z)
    (hcc : -1 ≤ t.cc ∧ t.cc ≤ 510) (hsp : t.sp = s.sp) (htpc : t.pc = s.pc + 1) (hchunk : t.chunk = s.chunk)
    (hsize : t.size = s.size) (hwidths : t.widths = s.widths) : RegistersOk t := by
  have hz8 : 1 ≤ z ∧ z ≤ 8 := by
    obtain hz | ⟨-, rfl⟩ := hz
    · exact fallingEdge_bounds hz
    · decide
  have hcursor : t.pc ≤ t.size := by omega
  exact
    { count := by rw [CountInRange, hstate, hsbc]; exact hz8
      channel := by rw [ChannelInRange, hstate]; exact hcc
      position := hsp ▸ hi.position
      cursor := .inl hcursor
      edge := fun _ => ⟨by omega, hcursor, b, by rw [hchunk, htpc]; exact hread, by rw [hsbc]; exact hz⟩
      countHeld := countHeld_of_le (hwidths ▸ hi.widthsOk) (by omega) }

/-- A slot boundary on its edge byte (R183 to R185). -/
theorem registersOk_boundary {z : Nat} (hst : s.state = .inDataStopbits) (hread : Memory.read s.chunk s.pc = some b)
    (hz : fallingEdge b = some z ∨ (b = 0x01#8 ∧ z = 7)) : RegistersOk (boundary z s) := by
  obtain ⟨hlow, hhigh⟩ : -1 ≤ s.cc ∧ s.cc ≤ 510 := by
    have h := hi.channel
    rwa [ChannelInRange, hst] at h
  have hlow' : -1 ≤ s.cc + 1 := by omega
  unfold boundary
  split
  · exact registersOk_lost hi hpc rfl rfl rfl hi.position le_rfl rfl rfl
  · split
    · next hlast =>
      exact registersOk_of_small hi.widthsOk (Nat.zero_le 165) ⟨hlow', hlast.le⟩ hi.position hpc nofun (Nat.zero_le _)
    · next hlast =>
      have hhigh' : s.cc + 1 ≤ 510 := by omega
      exact registersOk_startbit hi hpc hread hz rfl rfl ⟨hlow', hhigh'⟩ rfl rfl rfl rfl rfl

end

end Sys2Proof.Proofs

/-! The invariant (O34), put together: the registers after each selected operation, the rest of `State.Inv`, and the step. -/

namespace Sys2Proof.Proofs

open Sys2Proof.Machine Sys2Proof.Claims

/-! ### The registers after the operation that a byte selects -/

/-- The entry into IN_DATA_STOPBITS, which may skip one byte and so pass the end of the chunk (R174). -/
theorem registersOk_dataStopbits {s : State} {v : Byte} (hi : s.Inv) (hpc : s.pc < s.size)
    (hcc : -1 ≤ s.cc ∧ s.cc ≤ 510) :
    RegistersOk (advance (if 4 ≤ s.sp then 1 else 2)
      (enterWith .inDataStopbits (if 4 ≤ s.sp then s.sp else s.sp + 8) { s with val := v })) := by
  have hsp := hi.position
  by_cases hlate : 4 ≤ s.sp
  · rw [if_pos hlate, if_pos hlate]
    have hmod : s.sp % 8 = s.sp := Nat.mod_eq_of_lt (by omega)
    exact registersOk_of_small hi.widthsOk ⟨hlate, .inl hmod⟩ hcc hsp hpc nofun (hsp.trans (by decide))
  · rw [if_neg hlate, if_neg hlate]
    have hmod : (s.sp + 8) % 8 = s.sp := by omega
    have hcursor : s.pc + 2 ≤ s.size ∨ s.pc + 2 = s.size + 1 := by omega
    have hsmall : s.sp + 8 ≤ 255 := by omega
    exact
      { count := ⟨Nat.le_add_left_of_le (by decide), .inl hmod⟩
        channel := hcc
        position := hsp
        cursor := hcursor.imp_right fun h => ⟨h, rfl⟩
        edge := nofun
        countHeld := countHeld_of_le hi.widthsOk hsmall }

/-- Eight more samples keep what R33 (e) says of the count in IN_DATA_STOPBITS, until a finite register sticks (R105). -/
theorem stopbitCount_accumulate {s : State} (hw : WidthsOk s.widths)
    (h : 4 ≤ s.sbc ∧ (s.sbc % 8 = s.sp ∨ CountFull s)) :
    4 ≤ (accumulate s).sbc ∧ ((accumulate s).sbc % 8 = s.sp ∨ CountFull (accumulate s)) := by
  obtain ⟨hlow, hmod⟩ := h
  refine ⟨le_saturate hw (by decide) (by omega), ?_⟩
  cases hwidth : s.widths.sbc with
  | none =>
    obtain hmod | ⟨k, hk, -⟩ := hmod
    · exact .inl (by rw [accumulate_sbc, hwidth, saturate_none]; omega)
    · rw [hwidth] at hk
      cases hk
  | some w =>
    by_cases hfull : 2 ^ w - 1 ≤ s.sbc + 8
    · exact .inr ⟨w, hwidth, by rw [accumulate_sbc, hwidth, saturate_some, min_eq_right hfull]⟩
    · obtain hmod | ⟨k, hk, hmax⟩ := hmod
      · exact .inl (by rw [accumulate_sbc, hwidth, saturate_some]; omega)
      · cases hwidth.symm.trans hk
        omega

/-- Each operation that a byte selects keeps what the invariant says of the registers. -/
theorem registersOk_of_selects {s t : State} {st : LineState} {b : Byte} {i : Instr} (hi : s.Inv) (hst : s.state = st)
    (hpc : s.pc < s.size) (hread : Memory.read s.chunk s.pc = some b) (hsel : Selects s.sbc st b i)
    (hex : exec i s = .next t) : RegistersOk t := by
  have hlost : ∀ c, RegistersOk (advance 1 (lockLoss c s)) := fun c =>
    registersOk_lost hi hpc rfl rfl rfl hi.position le_rfl rfl rfl
  have hcc := channel_bounds hi.channel
  have hcount := hi.count
  have hchannel := hi.channel
  rw [CountInRange, hst] at hcount
  rw [ChannelInRange, hst] at hchannel
  cases hsel with
  | wfbFall edge =>
    cases hex
    have hz := fallingEdge_bounds edge
    exact registersOk_of_small hi.widthsOk (hz.2.trans (by decide)) hcc hi.position hpc nofun (hz.2.trans (by decide))
  | wfbScan =>
    cases hex
    have hsbc : s.sbc = 0 := hcount
    exact registersOk_lost hi hpc hst hsbc rfl hi.position le_rfl rfl rfl
  | brkZero =>
    cases hex
    simp only [breakLongEnough_iff]
    split
    · exact registersOk_of_small hi.widthsOk rfl rfl hi.position hpc nofun (Nat.zero_le _)
    · next hshort =>
      refine registersOk_accumulate hi hpc (by simp [hst]) ?_
      rw [CountInRange, advance_state, accumulate_state, hst]
      exact not_lt.1 hshort
  | brkAbort | wfmAbort | mabNoise | scNoise | scsNoise =>
    cases hex
    exact hlost _
  | wfmHold =>
    cases hex
    have hsbc : s.sbc = 0 := hcount
    exact registersOk_of_small hi.widthsOk (by rw [CountInRange, advance_state, hst]; exact hsbc)
      (by rw [ChannelInRange, advance_state, hst]; exact hchannel) hi.position hpc (by simp [hst])
      (show s.sbc ≤ 255 by omega)
  | wfmRise edge =>
    cases hex
    have ho := risingEdge_bounds edge
    exact registersOk_of_small hi.widthsOk ho.1 hchannel hi.position hpc nofun (ho.2.trans (by decide))
  | mabOnes | scZero | scsOnes =>
    cases hex
    have hsbc : 1 ≤ s.sbc := hcount
    refine registersOk_accumulate hi hpc (by simp [hst]) ?_
    rw [CountInRange, advance_state, accumulate_state, hst]
    exact le_saturate hi.widthsOk (by decide) (by omega)
  | mabFall edge =>
    cases hex
    have hz := fallingEdge_bounds edge
    split
    · exact hlost _
    · exact registersOk_of_small hi.widthsOk hz.1 hchannel hi.position hpc nofun (hz.2.trans (by decide))
  | scRise edge =>
    cases hex
    have ho := risingEdge_bounds edge
    split
    · exact registersOk_of_small hi.widthsOk ho.1 hchannel hi.position hpc nofun (ho.2.trans (by decide))
    · exact hlost _
  | scsFall edge =>
    cases hex
    have hcc' : s.cc = -1 := hchannel
    split
    · exact hlost _
    · exact registersOk_startbit hi hpc hread (.inl edge) rfl rfl (show -1 ≤ s.cc ∧ s.cc ≤ 510 by omega) rfl rfl rfl rfl rfl
  | dsbPrev late =>
    obtain ⟨prev, -, -, -, hk⟩ := readCap_eq_next hex
    cases hk
    have hpos : samplePosPrev s.sbc ≤ 7 := show s.sbc - 4 ≤ 7 by omega
    exact registersOk_checkStartBit hi hpc hchannel.2 _ hpos zero_le_one
  | dsbCur early =>
    cases hex
    have hpos : samplePosCur s.sbc ≤ 7 := show s.sbc + 4 ≤ 7 by omega
    exact registersOk_checkStartBit hi hpc hchannel.2 _ hpos le_rfl
  | dbBit more =>
    cases hex
    obtain ⟨hsbc, hval⟩ := hcount
    refine registersOk_of_small hi.widthsOk ?_ ?_ hi.position hpc (by simp [hst]) (show s.sbc + 1 ≤ 255 by omega)
    · rw [CountInRange, advance_state, hst]
      exact ⟨more, orDataBit_lt b s.sp hval (by omega)⟩
    · rw [ChannelInRange, advance_state, hst]
      exact hchannel
  | dbLast last =>
    cases (execDbLast_eq b s).symm.trans hex
    exact registersOk_dataStopbits hi hpc hchannel
  | dspOnes =>
    cases hex
    refine registersOk_accumulate hi hpc (by simp [hst]) ?_
    rw [CountInRange, advance_state, accumulate_state, hst]
    exact stopbitCount_accumulate hi.widthsOk hcount
  | dspEarly =>
    obtain ⟨hlow, hhigh, rfl⟩ := execDspEarly_eq_next hex
    exact registersOk_of_small hi.widthsOk (show 80 ≤ 165 by decide)
      ⟨show (-1 : Int) ≤ 511 by decide, show (511 : Int) ≤ 511 from le_rfl⟩ hi.position hpc nofun (show 80 ≤ 255 by decide)
  | dspFall edge =>
    cases slotBoundary_eq_boundary hex
    exact registersOk_boundary hi hpc hst hread (.inl edge)
  | dspAlt =>
    cases slotBoundary_eq_boundary hex
    exact registersOk_boundary hi hpc hst hread (.inr ⟨rfl, rfl⟩)
  | dspNoise =>
    cases hex
    exact registersOk_lost hi hpc rfl rfl rfl hi.position le_rfl rfl rfl

/-! ### The rest of the invariant -/

/-- An operation that a byte selects keeps the sinks in canonical form (R53, R54). -/
theorem sinksWf_of_stepOp {i : Instr} {s t : State} (hop : isStepOp i = true) (hex : exec i s = .next t)
    (hwf : Memory.wf s.sinks = true) : Memory.wf t.sinks = true := by
  obtain ⟨-, hreg⟩ | ⟨z, -, rfl⟩ | ⟨-, hearly⟩ | ⟨-, rfl⟩ := exec_stepOp_cases hop hex
  · obtain ⟨-, hsinks, -, -⟩ := fields_of_unregistered_eq hreg
    rw [hsinks]
    exact hwf
  · unfold boundary
    split
    · exact hwf
    · split <;> exact Memory.write_keeps_wf _ _ _ hwf
  · obtain ⟨-, -, rfl⟩ := execDspEarly_eq_next hearly
    exact Memory.fill_keeps_wf _ _ _ _ hwf
  · exact hwf

/-- The fill of an early termination is of zeros, not empty, and ends at slot 511 (R33 (g), R182). -/
theorem earlyFill_legal {cc : Int} (hlow : -1 ≤ cc) (hhigh : cc ≤ 510) :
    (OutEvent.sinkFill (BitVec.ofNat 9 (cc + 1).toNat) 0#8 (BitVec.ofNat 10 (511 - cc).toNat)).legal = true := by
  simp only [OutEvent.legal, BitVec.toNat_ofNat, Bool.and_eq_true, decide_eq_true_eq]
  exact ⟨⟨trivial, by omega⟩, by omega⟩

/-- The events of an operation that goes on are in the formats of R98. -/
theorem eventsOf_legal {i : Instr} {s t : State} (hex : exec i s = .next t) :
    ∀ e, e ∈ eventsOf i s → e.legal = true := by
  have hboundary : ∀ z e, e ∈ boundaryEvents z s → e.legal = true := by
    intro z e he
    cases e with
    | sinkSet | complete => rfl
    | sinkFill =>
      unfold boundaryEvents at he
      split at he
      · simp at he
      · split at he <;> simp at he
  cases i with
  | dspEarly =>
    obtain ⟨hlow, hhigh, -⟩ := execDspEarly_eq_next hex
    simpa [eventsOf, OutEvent.legal] using earlyFill_legal hlow hhigh
  | dspFall z => exact hboundary z
  | dspAlt => exact hboundary 7
  | dspNoise => simp [eventsOf, OutEvent.legal]
  | parseEnd =>
    simp only [eventsOf]
    split <;> simp [OutEvent.legal]
  | _ => nofun

/-- Every operation keeps its events in the formats of R98, since it appends those of `eventsOf`. -/
theorem outputs_legal_of_exec {i : Instr} {s t : State} (hex : exec i s = .next t)
    (hout : ∀ e, e ∈ s.outputs → e.legal = true) : ∀ e, e ∈ t.outputs → e.legal = true := by
  rw [(eventsAreThoseOfTheOperation i s t hex).1]
  intro e he
  exact (List.mem_append.1 he).elim (hout e) (eventsOf_legal hex e)

/-- A step on a byte keeps the invariant. -/
theorem inv_of_byte {s t : State} {b : Byte} {i : Instr} (hi : s.Inv) (hx : Examines s s.state b)
    (hsel : Selects s.sbc s.state b i) (hex : exec i s = .next t) : t.Inv := by
  obtain ⟨hbusy, hpc, -, hread⟩ := hx
  have hregs := registersOk_of_selects hi rfl hpc hread hsel hex
  obtain ⟨hchunk, hsize, htbusy, -, -, hrequests, hwidths⟩ := stepOperationsKeepTheBindings i s t hsel.isStepOp hex
  exact
    { count := hregs.count
      channel := hregs.channel
      position := hregs.position
      cursor := fun _ => hregs.cursor
      edge := fun _ => hregs.edge
      readable := by rw [hchunk, hsize]; exact hi.readable
      chunkWf := by rw [hchunk]; exact hi.chunkWf
      sinksWf := sinksWf_of_stepOp hsel.isStepOp hex hi.sinksWf
      unbound := by rw [htbusy, hchunk, hsize]; exact hi.unbound
      outputs := outputs_legal_of_exec hex hi.outputs
      requests := by rw [hrequests, hwidths]; exact hi.requests
      widthsOk := by rw [hwidths]; exact hi.widthsOk
      countHeld := hregs.countHeld
      cursorHeld := fun k hk => by
        rw [hwidths] at hk
        have hheld := (hi.cursorHeld k hk).2 hbusy
        have hcursor := hregs.cursor
        omega }

/-- What PARSE.END writes: the events, the invocations and the bindings of the call (R114). -/
theorem execParseEnd_eq_next {s t : State} (h : execParseEnd s = .next t) :
    ∃ o n, t = { s with outputs := o, invocations := n, busy := false, chunk := [], size := 0 } := by
  cases (execParseEnd_eq s).symm.trans h
  split
  · exact ⟨_, _, rfl⟩
  · exact ⟨_, _, rfl⟩

/-- The end of a call keeps the invariant: it unbinds the chunk and keeps the registers (R114). -/
theorem inv_of_parseEnd {s t : State} (hi : s.Inv) (hex : exec .parseEnd s = .next t) : t.Inv := by
  have hout := outputs_legal_of_exec hex hi.outputs
  obtain ⟨o, n, rfl⟩ := execParseEnd_eq_next hex
  exact
    { count := hi.count
      channel := hi.channel
      position := hi.position
      cursor := nofun
      edge := nofun
      readable := fun a ha => absurd ha (Nat.not_lt_zero a)
      chunkWf := rfl
      sinksWf := hi.sinksWf
      unbound := fun _ => ⟨rfl, rfl⟩
      outputs := hout
      requests := hi.requests
      widthsOk := hi.widthsOk
      countHeld := hi.countHeld
      cursorHeld := fun k hk => ⟨(hi.cursorHeld k hk).1, nofun⟩ }

/-- CONSTRUCT establishes the registers of reset and unbinds the chunk (R110, R230). -/
theorem inv_of_construct {s t : State} {start cb : Bool} {sink : Nat} (hi : s.Inv)
    (hex : exec (.construct start sink cb) s = .next t) : t.Inv := by
  obtain ⟨hidle, rfl⟩ := execConstruct_eq_next hex
  exact
    { count := rfl
      channel := ⟨le_rfl, show (-1 : Int) ≤ 511 by decide⟩
      position := Nat.zero_le 7
      cursor := fun _ => .inl (Nat.zero_le _)
      edge := fun _ => nofun
      readable := fun a ha => absurd ha (Nat.not_lt_zero a)
      chunkWf := rfl
      sinksWf := hi.sinksWf
      unbound := fun _ => ⟨rfl, rfl⟩
      outputs := hi.outputs
      requests := hi.requests
      widthsOk := hi.widthsOk
      countHeld := fun k _ => Nat.two_pow_pos k
      cursorHeld := fun k _ => ⟨Nat.two_pow_pos k, fun hb => by rw [show s.busy = true from hb] at hidle; cases hidle⟩ }

/-- PARSE.BEGIN establishes a call on a chunk that the host may pass (R111, R236 rows 5 and 6, U13). -/
theorem inv_of_parseBegin {s t : State} {q : HostRequest} (hi : s.Inv) (hok : HostRequest.ok q)
    (hex : exec (.parseBegin q.chunk q.size) s = .next t) : t.Inv := by
  obtain ⟨-, hheld, -, rfl⟩ := execParseBegin_eq_next hex
  have hcc := channel_bounds hi.channel
  exact
    { count := rfl
      channel := hcc
      position := hi.position
      cursor := fun _ => .inl (Nat.zero_le _)
      edge := fun _ => nofun
      readable := hok.2
      chunkWf := hok.1
      sinksWf := hi.sinksWf
      unbound := nofun
      outputs := hi.outputs
      requests := hi.requests
      widthsOk := hi.widthsOk
      countHeld := fun k _ => Nat.two_pow_pos k
      cursorHeld := fun k hk => ⟨Nat.two_pow_pos k, fun _ => by
        rw [show s.widths.cursor = some k from hk] at hheld
        exact (cursorHolds_some k q.size).1 hheld⟩ }

/-- Taking the request that was looked at keeps the invariant (R99). -/
theorem taken_inv {s : State} (hi : s.Inv) : (taken s).Inv := by
  cases hb : s.busy with
  | true => rwa [taken_of_busy s hb]
  | false =>
    rw [taken_of_idle s hb]
    exact { hi with requests := fun q hq => hi.requests q (List.mem_of_mem_tail hq) }

/-- Every dispatched operation keeps the invariant. -/
theorem inv_of_dispatched {s t : State} {i : Instr} (hi : s.Inv) (hd : Dispatched s i)
    (hex : exec i (taken s) = .next t) : t.Inv := by
  cases hd with
  | byte examines selects =>
    rw [taken_of_busy s examines.1] at hex
    exact inv_of_byte hi examines selects hex
  | callEnd busy used => exact inv_of_parseEnd (taken_inv hi) hex
  | construct pending idle => exact inv_of_construct (taken_inv hi) hex
  | parseBegin pending idle => exact inv_of_parseBegin (taken_inv hi) (hi.requests _ pending).1 hex

/-- Settles O34: a step waits for a request or performs one dispatched operation. -/
theorem everyStepKeepsTheInvariant : Obligations.EveryStepKeepsTheInvariant := by
  intro s t hi h
  obtain ⟨-, rfl⟩ | ⟨f, i, hf, hd, hex⟩ := step_eq_next h
  · exact taken_inv hi
  · exact inv_of_dispatched hi (dispatched_of_fetch hf hd) hex

end Sys2Proof.Proofs

/-! The saturating count (O57): a finite SBC_WIDTH of at least eight bits changes no decision of the decoder, so each step of
the unbounded decoder is a step of the narrowed one. -/

namespace Sys2Proof.Proofs

open Sys2Proof.Machine Sys2Proof.Claims

/-! ### The fields of a narrowed state -/

section
variable (w : Nat) (s : State)

@[simp] theorem narrowed_state : (narrowed w s).state = s.state := rfl
theorem narrowed_sbc : (narrowed w s).sbc = saturate (some w) s.sbc := rfl
@[simp] theorem narrowed_val : (narrowed w s).val = s.val := rfl
@[simp] theorem narrowed_cc : (narrowed w s).cc = s.cc := rfl

/-! ### The shared operations on a narrowed state -/

@[simp] theorem narrowed_changeState (st : LineState) :
    narrowed w (changeState st s) = changeState st (narrowed w s) := by
  simp [narrowed, changeState]

@[simp] theorem narrowed_lockLoss (c : LockLossCause) : narrowed w (lockLoss c s) = lockLoss c (narrowed w s) :=
  narrowed_changeState w s .waitForBreak

@[simp] theorem narrowed_advance (n : Nat) : narrowed w (advance n s) = advance n (narrowed w s) := rfl
@[simp] theorem narrowed_complete : narrowed w (complete s) = complete (narrowed w s) := rfl

@[simp] theorem narrowed_checkStartBit (bit : Byte) (p : Nat) :
    narrowed w (checkStartBit bit p s) = checkStartBit bit p (narrowed w s) := by
  unfold checkStartBit
  rw [apply_ite (narrowed w), narrowed_lockLoss, narrowed_changeState]
  rfl

theorem taken_narrowed : taken (narrowed w s) = narrowed w (taken s) := by
  unfold taken
  rw [apply_ite (narrowed w)]
  rfl

end

/-- Eight more samples: the saturated sum does not depend on where saturation began (R105). -/
theorem narrowed_accumulate {s : State} (w : Nat) (hs : s.widths.sbc = none) :
    narrowed w (accumulate s) = accumulate (narrowed w s) := by
  have h : min (s.sbc + 8) (2 ^ w - 1) = min (min s.sbc (2 ^ w - 1) + 8) (2 ^ w - 1) := by omega
  simp only [narrowed, accumulate, hs, saturate_none, saturate_some, samplesPerByte_eq, h]

section
variable {w : Nat} (hw : 8 ≤ w)
include hw

/-- A count that eight bits hold is not narrowed. -/
theorem saturate_some_of_le {n : Nat} (hn : n ≤ 255) : saturate (some w) n = n :=
  saturate_of_le (fun k hk => by cases hk; exact hw) hn

/-- A narrowed count passes the same thresholds. -/
theorem lt_saturate_some_iff {n k : Nat} (hk : k < 255) : k < saturate (some w) n ↔ k < n :=
  lt_saturate_iff (fun k hk => by cases hk; exact hw) hk

/-- Entering a state with a seed that eight bits hold. -/
theorem narrowed_enterWith (st : LineState) {v : Nat} (hv : v ≤ 255) (s : State) :
    narrowed w (enterWith st v s) = enterWith st v (narrowed w s) := by
  have h : min v (2 ^ w - 1) = v := saturate_some_of_le hw hv
  simp only [narrowed, enterWith, changeState, h]

/-! ### The conditions of R29 on a narrowed count -/

theorem breakLongEnough_saturate (n : Nat) : breakLongEnough (saturate (some w) n) = breakLongEnough n := by
  rw [Bool.eq_iff_iff, breakLongEnough_iff, breakLongEnough_iff, lt_saturate_some_iff hw (by decide)]

theorem onesTotal_saturate_le_iff (n z : Nat) : onesTotal (saturate (some w) n) z ≤ 15 ↔ onesTotal n z ≤ 15 := by
  have h := lt_saturate_some_iff hw (n := n) (k := 15 - (8 - z)) (by omega)
  rw [onesTotal_eq, onesTotal_eq]
  omega

theorem inStartcodeWindow_saturate (n o : Nat) :
    inStartcodeWindow (zerosTotal (saturate (some w) n) o) = inStartcodeWindow (zerosTotal n o) := by
  have hlow := lt_saturate_some_iff hw (n := n) (k := 67 - (8 - o)) (by omega)
  have hhigh := lt_saturate_some_iff hw (n := n) (k := 76 - (8 - o)) (by omega)
  rw [Bool.eq_iff_iff, inStartcodeWindow_iff, inStartcodeWindow_iff, zerosTotal_eq, zerosTotal_eq]
  omega

theorem mabTooShort_saturate (n z : Nat) :
    mabTooShort (onesTotal (saturate (some w) n) z) = mabTooShort (onesTotal n z) := by
  rw [Bool.eq_iff_iff, mabTooShort_iff, mabTooShort_iff, onesTotal_saturate_le_iff hw]

theorem stopTooShort_saturate (n z : Nat) :
    stopTooShort (onesTotal (saturate (some w) n) z) = stopTooShort (onesTotal n z) := by
  rw [Bool.eq_iff_iff, stopTooShort_iff, stopTooShort_iff, onesTotal_saturate_le_iff hw]

theorem startSampleInPrev_saturate (n : Nat) : startSampleInPrev (saturate (some w) n) = startSampleInPrev n := by
  have h := lt_saturate_some_iff hw (n := n) (k := 3) (by decide)
  rw [Bool.eq_iff_iff, startSampleInPrev_iff, startSampleInPrev_iff]
  omega

theorem earlyTermination_saturate (n : Nat) (val : Byte) :
    earlyTermination (saturate (some w) n) val = earlyTermination n val := by
  have h := lt_saturate_some_iff hw (n := n) (k := 11) (by decide)
  have hle : saturate (some w) n ≤ 11 ↔ n ≤ 11 := by omega
  rw [Bool.eq_iff_iff, earlyTermination_iff, earlyTermination_iff, hle]

/-! ### The decoder on a narrowed count -/

theorem decodeInDataBits_saturate (n : Nat) (b : Byte) :
    decodeInDataBits (saturate (some w) n) b = decodeInDataBits n b := by
  have hlow := lt_saturate_some_iff hw (n := n) (k := 6) (by decide)
  have hhigh := lt_saturate_some_iff hw (n := n) (k := 7) (by decide)
  have hlt : saturate (some w) n < lastDataBit ↔ n < lastDataBit := by rw [lastDataBit_eq]; omega
  have heq : saturate (some w) n = lastDataBit ↔ n = lastDataBit := by rw [lastDataBit_eq]; omega
  simp only [decodeInDataBits, hlt, heq]

/-- The rows that test `sbc` are selected by a narrowed count as by the unbounded one (R88). -/
theorem decode_saturate (n : Nat) (val : Byte) (f : FetchWord) : decode (saturate (some w) n) val f = decode n val f := by
  have hbyte : ∀ st b, decodeByte (saturate (some w) n) val st b = decodeByte n val st b := by
    intro st b
    cases st with
    | inDataStartbit => simp only [decodeByte, decodeInDataStartbit, startSampleInPrev_saturate hw]
    | inDataBits => exact decodeInDataBits_saturate hw n b
    | inDataStopbits => simp only [decodeByte, decodeInDataStopbits, earlyTermination_saturate hw]
    | _ => rfl
  cases f with
  | step v => simp only [decode, decodeStep, hbyte]
  | host q => rfl
  | loop => rfl

/-! ### The operations on a narrowed state -/

/-- AcceptChannel, once the slot is written (R185). -/
theorem narrowed_afterAccept {z : Nat} (hz : z ≤ 255) (s : State) :
    narrowed w (afterAccept z s) = afterAccept z (narrowed w s) := by
  unfold afterAccept
  rw [apply_ite (narrowed w), narrowed_enterWith hw _ (by decide), narrowed_enterWith hw _ hz]
  rfl

/-- A slot boundary. -/
theorem slotBoundary_narrowed {z : Nat} {s t : State} (hz : z ≤ 255) (h : slotBoundary z s = .next t) :
    slotBoundary z (narrowed w s) = .next (narrowed w t) := by
  rw [slotBoundary, narrowed_sbc, stopTooShort_saturate hw]
  obtain ⟨hs, rfl⟩ | ⟨hs, u, hu, rfl⟩ := slotBoundary_eq_next h
  · rw [if_pos ((stopTooShort_iff _).2 hs)]
    simp
  · obtain ⟨hlow, hhigh, rfl⟩ := acceptChannel_eq_next hu
    rw [if_neg (fun h => absurd ((stopTooShort_iff _).1 h) (not_le.2 hs)),
      acceptChannel_of_range (s := narrowed w s) z hlow hhigh, andThen_next, narrowed_advance, narrowed_afterAccept hw hz]
    rfl

/-- Early termination. -/
theorem execDspEarly_narrowed {s t : State} (h : execDspEarly s = .next t) :
    execDspEarly (narrowed w s) = .next (narrowed w t) := by
  obtain ⟨u, hu, ht⟩ := andThen_eq_next.1 h
  obtain ⟨h0, h1, hn, he, rfl⟩ := sinkFill_eq_next hu
  cases ht
  rw [execDspEarly, narrowed_cc, sinkFill_of_slots _ _ h0 h1 hn he, andThen_next, narrowed_advance,
    narrowed_enterWith hw _ (by decide)]
  rfl

/-- Every operation that a byte selects gives the same result on the narrowed state. The invariant bounds the values that
the look-back and DB.LAST take from `sbc` and `sp`. -/
theorem exec_narrowed_of_selects {s t : State} {st : LineState} {b : Byte} {i : Instr} (hi : s.Inv)
    (hs : s.widths.sbc = none) (hst : s.state = st) (hsel : Selects s.sbc st b i) (hex : exec i s = .next t) :
    exec i (narrowed w s) = .next (narrowed w t) := by
  have hsame : s.sbc ≤ 255 → (narrowed w s).sbc = s.sbc := saturate_some_of_le hw
  cases hsel with
  | wfbFall edge =>
    cases hex
    rw [narrowed_advance, narrowed_enterWith hw _ ((fallingEdge_bounds edge).2.trans (by decide))]
    rfl
  | wfmRise edge =>
    cases hex
    rw [narrowed_advance, narrowed_enterWith hw _ ((risingEdge_bounds edge).2.trans (by decide))]
    rfl
  | wfbScan | wfmHold =>
    cases hex
    rfl
  | brkAbort | wfmAbort | mabNoise | scNoise | scsNoise | dspNoise =>
    cases hex
    rw [narrowed_advance, narrowed_lockLoss]
    rfl
  | mabOnes | scZero | scsOnes | dspOnes =>
    cases hex
    rw [narrowed_advance, narrowed_accumulate w hs]
    rfl
  | brkZero =>
    cases hex
    have hsbc : (accumulate (narrowed w s)).sbc = saturate (some w) (accumulate s).sbc := by
      rw [← narrowed_accumulate w hs, narrowed_sbc]
    rw [narrowed_advance, apply_ite (narrowed w), narrowed_changeState, narrowed_accumulate w hs,
      ← breakLongEnough_saturate hw, ← hsbc]
    rfl
  | mabFall edge =>
    cases hex
    rw [narrowed_advance, apply_ite (narrowed w), narrowed_lockLoss, ← mabTooShort_saturate hw,
      narrowed_enterWith hw _ ((fallingEdge_bounds edge).2.trans (by decide))]
    rfl
  | scRise edge =>
    cases hex
    rw [narrowed_advance, apply_ite (narrowed w), narrowed_lockLoss, ← inStartcodeWindow_saturate hw,
      narrowed_enterWith hw _ ((risingEdge_bounds edge).2.trans (by decide))]
    rfl
  | scsFall edge =>
    cases hex
    rw [narrowed_advance, apply_ite (narrowed w), narrowed_lockLoss, ← stopTooShort_saturate hw,
      narrowed_enterWith hw _ ((fallingEdge_bounds edge).2.trans (by decide))]
    rfl
  | dsbPrev late =>
    obtain ⟨prev, h0, h1, hread, hk⟩ := readCap_eq_next hex
    cases hk
    have hcount : 1 ≤ s.sbc ∧ s.sbc ≤ 8 := by
      have h := hi.count
      rwa [CountInRange, hst] at h
    rw [narrowed_checkStartBit, ← hsame (by omega)]
    exact readCap_of_some _ h0 h1 hread
  | dsbCur early =>
    cases hex
    rw [narrowed_checkStartBit, ← hsame (by omega)]
    rfl
  | dbBit more =>
    cases hex
    have hsum : min (s.sbc + 1) (2 ^ w - 1) = s.sbc + 1 := saturate_some_of_le hw (by omega)
    show Host.Outcome.next (advance 1 { narrowed w s with
      val := orDataBit s.val b s.sp (narrowed w s).sbc, sbc := (narrowed w s).sbc + 1 }) = _
    rw [hsame (by omega), narrowed_advance]
    simp only [narrowed, hsum]
  | dbLast last =>
    cases (execDbLast_eq b s).symm.trans hex
    have hsp := hi.position
    have hseed : (if 4 ≤ s.sp then s.sp else s.sp + 8) ≤ 255 := by split <;> omega
    rw [narrowed_advance, narrowed_enterWith hw _ hseed]
    exact execDbLast_eq b (narrowed w s)
  | dspEarly => exact execDspEarly_narrowed hw hex
  | dspFall edge => exact slotBoundary_narrowed hw ((fallingEdge_bounds edge).2.trans (by decide)) hex
  | dspAlt => exact slotBoundary_narrowed hw (by decide) hex

end

/-- The host operations and the end of a call do not look at the count. -/
theorem exec_narrowed_of_not_stepOp {i : Instr} {s t : State} (w : Nat) (hop : isStepOp i = false)
    (hex : exec i s = .next t) : exec i (narrowed w s) = .next (narrowed w t) := by
  cases i with
  | construct start sink cb =>
    obtain ⟨hidle, rfl⟩ := execConstruct_eq_next hex
    simp [exec, execConstruct, narrowed, hidle]
  | parseBegin chunk size =>
    obtain ⟨hidle, hheld, hread, rfl⟩ := execParseBegin_eq_next hex
    simp [exec, execParseBegin, narrowed, hidle, hheld, hread]
  | parseEnd =>
    cases (execParseEnd_eq s).symm.trans hex
    refine (execParseEnd_eq (narrowed w s)).trans ?_
    rw [narrowed_state, ← narrowed_complete, ← apply_ite (narrowed w)]
    rfl
  | _ => cases hop

/-! ### Steps and runs -/

/-- Every dispatched operation gives the same result on the narrowed state. -/
theorem exec_narrowed_of_dispatched {w : Nat} {s t : State} {i : Instr} (hw : 8 ≤ w) (hi : s.Inv)
    (hs : s.widths.sbc = none) (hd : Dispatched s i) (hex : exec i (taken s) = .next t) :
    exec i (narrowed w (taken s)) = .next (narrowed w t) := by
  cases hd with
  | byte examines selects =>
    rw [taken_of_busy s examines.1] at hex ⊢
    exact exec_narrowed_of_selects hw hi hs rfl selects hex
  | callEnd => exact exec_narrowed_of_not_stepOp w rfl hex
  | construct => exact exec_narrowed_of_not_stepOp w rfl hex
  | parseBegin => exact exec_narrowed_of_not_stepOp w rfl hex

/-- A step of the unbounded decoder is a step of the narrowed one. -/
theorem step_narrowed {w : Nat} {s t : State} (hw : 8 ≤ w) (hi : s.Inv) (hs : s.widths.sbc = none)
    (h : step s = .next t) : step (narrowed w s) = .next (narrowed w t) := by
  have hfetch : fetch (narrowed w s) = fetch s := rfl
  obtain ⟨hf, rfl⟩ | ⟨f, i, hf, hd, hex⟩ := step_eq_next h
  · simp only [step, hfetch, hf, taken_narrowed]
  · simp only [step, hfetch, hf, narrowed_sbc, narrowed_val, decode_saturate hw, hd, taken_narrowed]
    exact exec_narrowed_of_dispatched hw hi hs (dispatched_of_fetch hf hd) hex

/-- No operation writes the widths (R10; log 2). -/
theorem exec_widths {i : Instr} {s t : State} (hex : exec i s = .next t) : t.widths = s.widths := by
  by_cases hop : isStepOp i = true
  · obtain ⟨-, -, -, -, -, -, hwidths⟩ := stepOperationsKeepTheBindings i s t hop hex
    exact hwidths
  · cases i with
    | construct start sink cb =>
      obtain ⟨-, rfl⟩ := execConstruct_eq_next hex
      rfl
    | parseBegin chunk size =>
      obtain ⟨-, -, -, rfl⟩ := execParseBegin_eq_next hex
      rfl
    | parseEnd =>
      obtain ⟨o, n, rfl⟩ := execParseEnd_eq_next hex
      rfl
    | _ => exact absurd rfl hop

/-- No step writes the widths (R10; log 2). -/
theorem step_widths {s t : State} (h : step s = .next t) : t.widths = s.widths := by
  obtain ⟨-, rfl⟩ | ⟨f, i, -, -, hex⟩ := step_eq_next h
  · exact taken_widths s
  · rw [exec_widths hex, taken_widths]

/-- Settles O57, by induction on the steps: each keeps the invariant and the widths, which `step_narrowed` needs again. -/
theorem aSaturatingCountGivesTheSameRun : Obligations.ASaturatingCountGivesTheSameRun := by
  intro w k s t hw hs hi hrun
  induction k generalizing s with
  | zero =>
    cases hrun
    rfl
  | succ k ih =>
    obtain ⟨u, hu, hrest⟩ := andThen_eq_next.1 hrun
    rw [steps, step_narrowed hw hi hs hu, andThen_next]
    exact ih u (by rw [step_widths hu]; exact hs) (everyStepKeepsTheInvariant s u hi hu) hrest

end Sys2Proof.Proofs

/-! The registers (O37, O42), the state after reset (O1, O2) and the refusals of the step (O58). -/

namespace Sys2Proof.Proofs

open Sys2Proof.Machine Sys2Proof.Claims

/-! ### The registers `sp`, `val` and `cc` (O42) -/

/-- The two ends of BRK.ZERO: the break goes on, or it has passed its threshold (R142). -/
theorem execBrkZero_eq_next {s t : State} (h : execBrkZero s = .next t) :
    ((accumulate s).sbc ≤ 165 ∧ t = advance 1 (accumulate s)) ∨
    (165 < (accumulate s).sbc ∧ t = advance 1 (changeState .waitForMab (accumulate s))) := by
  cases h
  simp only [breakLongEnough_iff]
  split
  · exact .inr ⟨‹_›, rfl⟩
  · exact .inl ⟨not_lt.1 ‹_›, rfl⟩

/-- The start-bit test does not count a slot (R171, R172). -/
@[simp] theorem checkStartBit_cc (bit : Byte) (p : Nat) (s : State) : (checkStartBit bit p s).cc = s.cc := by
  obtain ⟨-, h⟩ | ⟨-, h⟩ := checkStartBit_cases bit p s <;> rw [h] <;> rfl

/-- A slot boundary does not sample (R183 to R185). -/
theorem boundary_keeps_sp_val (z : Nat) (s : State) : (boundary z s).sp = s.sp ∧ (boundary z s).val = s.val := by
  unfold boundary
  split
  · exact ⟨rfl, rfl⟩
  · split <;> exact ⟨rfl, rfl⟩

/-- Settles O42, by cases on the operation: the inversion of each shows the registers it writes. -/
theorem onlyTheNamedOperationsWriteTheRegisters : Obligations.OnlyTheNamedOperationsWriteTheRegisters := by
  intro i s t h
  cases i with
  | wfbFall | wfbScan | brkAbort | wfmHold | wfmRise | wfmAbort | mabOnes | mabNoise | scZero | scNoise | scsOnes
  | scsNoise | dspOnes | dspNoise =>
    cases h
    exact ⟨fun _ => rfl, fun _ => rfl, fun _ => rfl⟩
  | mabFall | scRise | scsFall =>
    cases h
    split <;> exact ⟨fun _ => rfl, fun _ => rfl, fun _ => rfl⟩
  | brkZero =>
    obtain ⟨-, rfl⟩ | ⟨-, rfl⟩ := execBrkZero_eq_next h <;> exact ⟨fun _ => rfl, fun _ => rfl, nofun⟩
  | dsbPrev byte =>
    obtain ⟨prev, -, -, -, hk⟩ := readCap_eq_next h
    cases hk
    exact ⟨nofun, nofun, fun _ => checkStartBit_cc ..⟩
  | dsbCur byte =>
    cases h
    exact ⟨nofun, nofun, fun _ => checkStartBit_cc ..⟩
  | dbBit byte =>
    cases h
    exact ⟨fun _ => rfl, nofun, fun _ => rfl⟩
  | dbLast byte =>
    cases (execDbLast_eq byte s).symm.trans h
    exact ⟨fun _ => rfl, nofun, fun _ => rfl⟩
  | dspEarly =>
    obtain ⟨-, -, rfl⟩ := execDspEarly_eq_next h
    exact ⟨fun _ => rfl, fun _ => rfl, nofun⟩
  | dspFall | dspAlt =>
    cases slotBoundary_eq_boundary h
    obtain ⟨hsp, hval⟩ := boundary_keeps_sp_val _ s
    exact ⟨fun _ => hsp, fun _ => hval, nofun⟩
  | construct start sink cb => exact ⟨nofun, nofun, nofun⟩
  | parseBegin chunk size =>
    obtain ⟨-, -, -, rfl⟩ := execParseBegin_eq_next h
    exact ⟨fun _ => rfl, fun _ => rfl, fun _ => rfl⟩
  | parseEnd =>
    obtain ⟨o, n, rfl⟩ := execParseEnd_eq_next h
    exact ⟨fun _ => rfl, fun _ => rfl, fun _ => rfl⟩

/-! ### What a step does with the byte at `pc` -/

/-- The operation that the byte at `pc` selects is performed (R88, R112, R113). -/
theorem step_of_decodeByte_some {s : State} {st : LineState} {b : Byte} {i : Instr} (hx : Examines s st b)
    (hi : decodeByte s.sbc s.val st b = some i) : step s = exec i s := by
  obtain ⟨hbusy, hpc, rfl, hread⟩ := hx
  simp only [step, fetch_of_byte hbusy hpc hread, decode, decodeStep_stepWord, hi, taken_of_busy s hbusy]

/-- Where no row takes the byte at `pc` the step is refused (R88; log 13). -/
theorem step_of_decodeByte_none {s : State} {st : LineState} {b : Byte} (hx : Examines s st b)
    (hi : decodeByte s.sbc s.val st b = none) : step s = .refused .noOperation := by
  obtain ⟨hbusy, hpc, rfl, hread⟩ := hx
  simp only [step, fetch_of_byte hbusy hpc hread, decode, decodeStep_stepWord, hi]

/-- A step that examines a byte and goes on performs an operation that the byte selects. -/
theorem selects_of_step {s t : State} {st : LineState} {b : Byte} (hx : Examines s st b) (h : step s = .next t) :
    ∃ i, Selects s.sbc st b i ∧ exec i s = .next t := by
  cases hi : decodeByte s.sbc s.val st b with
  | none => cases (step_of_decodeByte_none hx hi).symm.trans h
  | some i => exact ⟨i, selects_of_decodeByte hi, (step_of_decodeByte_some hx hi).symm.trans h⟩

/-! ### The channel count (O37) -/

/-- A slot boundary counts one slot or none (R183 to R185). -/
theorem cc_le_boundary_cc (z : Nat) (s : State) : s.cc ≤ (boundary z s).cc := by
  have hcounted : s.cc ≤ s.cc + 1 := by omega
  unfold boundary
  split
  · exact le_rfl
  · split <;> exact hcounted

/-- Every operation that a byte selects, but BRK.ZERO, leaves `cc` or raises it (R26, R188). -/
theorem cc_le_of_selects {sbc : Nat} {st : LineState} {b : Byte} {i : Instr} {s t : State} (hsel : Selects sbc st b i)
    (hne : i ≠ .brkZero) (hex : exec i s = .next t) : s.cc ≤ t.cc := by
  by_cases hw : writesCc i = true
  · cases hsel with
    | brkZero => exact absurd rfl hne
    | dspEarly =>
      obtain ⟨-, hhigh, rfl⟩ := execDspEarly_eq_next hex
      have hlast : (510 : Int) ≤ 511 := by decide
      exact hhigh.trans hlast
    | dspFall | dspAlt =>
      cases slotBoundary_eq_boundary hex
      exact cc_le_boundary_cc _ s
    | _ => cases hw
  · obtain ⟨-, -, hkept⟩ := onlyTheNamedOperationsWriteTheRegisters i s t hex
    exact (hkept (Bool.eq_false_iff.2 hw)).ge

/-- A slot boundary does not lead to WAIT_FOR_MAB (R183 to R185). -/
theorem boundary_state_ne_waitForMab (z : Nat) (s : State) : (boundary z s).state ≠ .waitForMab := by
  unfold boundary
  split
  · nofun
  · split <;> nofun

/-- The start-bit test does not lead to WAIT_FOR_MAB (R171, R172). -/
theorem checkStartBit_state_ne_waitForMab (bit : Byte) (p : Nat) (s : State) :
    (checkStartBit bit p s).state ≠ .waitForMab := by
  obtain ⟨-, h⟩ | ⟨-, h⟩ := checkStartBit_cases bit p s <;> rw [h] <;> nofun

/-- In a state other than WAIT_FOR_MAB, no operation that a byte selects but BRK.ZERO leads to WAIT_FOR_MAB (R121). -/
theorem eq_brkZero_of_enters_waitForMab {st : LineState} {b : Byte} {i : Instr} {s t : State}
    (hsel : Selects s.sbc st b i) (hst : s.state = st) (hex : exec i s = .next t) (hne : st ≠ .waitForMab)
    (ht : t.state = .waitForMab) : i = .brkZero := by
  cases hsel with
  | brkZero => rfl
  | wfmHold | wfmRise | wfmAbort => exact absurd rfl hne
  | wfbScan | mabOnes | scZero | scsOnes | dbBit | dspOnes =>
    cases hex
    exact absurd (hst.symm.trans ht) hne
  | wfbFall | brkAbort | mabNoise | scNoise | scsNoise | dspNoise =>
    cases hex
    cases ht
  | mabFall | scRise | scsFall =>
    cases hex
    split at ht <;> cases ht
  | dsbPrev =>
    obtain ⟨prev, -, -, -, hk⟩ := readCap_eq_next hex
    cases hk
    exact absurd ht (checkStartBit_state_ne_waitForMab _ _ _)
  | dsbCur =>
    cases hex
    exact absurd ht (checkStartBit_state_ne_waitForMab _ _ _)
  | dbLast =>
    cases (execDbLast_eq b s).symm.trans hex
    cases ht
  | dspEarly =>
    obtain ⟨-, -, rfl⟩ := execDspEarly_eq_next hex
    cases ht
  | dspFall | dspAlt =>
    cases slotBoundary_eq_boundary hex
    exact absurd ht (boundary_state_ne_waitForMab _ s)

/-- Settles O37: BRK.ZERO is the one operation that lowers `cc` and the one that enters WAIT_FOR_MAB. -/
theorem channelCountOnlyFallsAtTheBreak : Obligations.ChannelCountOnlyFallsAtTheBreak := by
  intro s t st b hx h
  obtain ⟨i, hsel, hex⟩ := selects_of_step hx h
  obtain ⟨-, -, hst, -⟩ := hx
  by_cases hbrk : i = .brkZero
  · subst hbrk
    cases hsel
    obtain ⟨-, rfl⟩ | ⟨-, rfl⟩ := execBrkZero_eq_next hex
    · exact ⟨.inl le_rfl, fun _ ht => nomatch hst.symm.trans ht⟩
    · exact ⟨.inr ⟨rfl, rfl⟩, fun _ _ => rfl⟩
  · exact ⟨.inl (cc_le_of_selects hsel hbrk hex),
      fun hne ht => absurd (eq_brkZero_of_enters_waitForMab hsel hst hex hne ht) hbrk⟩

/-! ### The state after reset (O1, O2) -/

/-- Settles O1: the fields of `State.reset` as they stand; the sinks list no address. -/
theorem resetIsAConstructedDecoder : Obligations.ResetIsAConstructedDecoder :=
  ⟨rfl, rfl, rfl, rfl, rfl, rfl, fun _ => rfl, rfl, rfl, rfl, rfl, rfl, rfl, rfl, rfl, rfl, rfl⟩

/-- Settles O2, one field of the invariant after the other: no call, no chunk, no event, no request and no finite width. -/
theorem resetMeetsTheInvariant : Obligations.ResetMeetsTheInvariant where
  count := rfl
  channel := ⟨le_rfl, by decide⟩
  position := Nat.zero_le 7
  cursor := nofun
  edge := nofun
  readable := fun a ha => absurd ha (Nat.not_lt_zero a)
  chunkWf := rfl
  sinksWf := rfl
  unbound := fun _ => ⟨rfl, rfl⟩
  outputs := nofun
  requests := nofun
  widthsOk := nofun
  countHeld := nofun
  cursorHeld := nofun

/-! ### The refusals of the step (O58) -/

/-- During a call the fetch finds no byte where the chunk has none below `size` (U6). -/
theorem fetch_of_unreadable {s : State} (hb : s.busy = true) (hp : s.pc < s.size)
    (hr : Memory.read s.chunk s.pc = none) : fetch s = .unreadable := by
  simp [fetch, hb, hp, hr]

/-- In IN_DATA_BITS no row takes a count above 7 (R33, R88). -/
theorem decodeInDataBits_of_gt {sbc : Nat} (b : Byte) (h : 7 < sbc) : decodeInDataBits sbc b = none := by
  rw [decodeInDataBits, if_neg h.not_gt, if_neg h.ne']

/-- Settles O58: the fetch refuses the missing byte, the decoder the count that no row takes. -/
theorem stepRefusesWhatTheSpecRefuses : Obligations.StepRefusesWhatTheSpecRefuses := by
  constructor
  · intro s hbusy hpc hread
    rw [step, fetch_of_unreadable hbusy hpc hread]
  · intro s b hx hcount
    exact step_of_decodeByte_none hx (decodeInDataBits_of_gt b hcount)

end Sys2Proof.Proofs

/-! The two memories: the frame and the contents of the sinks (O39, O40, O41), and the accesses outside the memories (O30). -/

namespace Sys2Proof.Proofs

open Sys2Proof.Machine Sys2Proof.Claims

/-! ### Slots and their addresses -/

/-- A slot's contents are those of its address (R52; log 1). -/
theorem slot_eq_read (s : State) (r k : Nat) : s.slot r k = Memory.read s.sinks (slotAddr r k) := rfl

/-- No two slots share an address (R52; log 1). -/
theorem slotAddr_inj_iff {q r i k : Nat} (hi : i < 512) (hk : k < 512) : slotAddr q i = slotAddr r k ↔ q = r ∧ i = k := by
  simp only [slotAddr, slotCount_eq]
  omega

/-- A write leaves every other address (R53). -/
theorem read_write_of_ne {m : Memory} {a b : Nat} {v : Byte} (h : b ≠ a) :
    Memory.read (Memory.write m a v) b = Memory.read m b := by
  rw [Memory.read_write, if_neg h]

/-! ### The operations that store nothing (O39) -/

/-- An operation that stores nothing writes no slot (R98). -/
theorem sinkSet_not_mem_eventsOf {i : Instr} (s : State) (k : BitVec 9) (v : Byte) (hst : storesToSink i = false) :
    .sinkSet k v ∉ eventsOf i s := by
  cases i with
  | dspEarly | dspFall | dspAlt => cases hst
  | dspNoise => simp [eventsOf]
  | parseEnd =>
    simp only [eventsOf]
    split <;> simp
  | _ => exact List.not_mem_nil

/-- With long stop bits a slot boundary writes a slot (R185). -/
theorem sinkSet_mem_boundaryEvents {z : Nat} {s : State} (hlong : ¬s.sbc + (8 - z) ≤ 15) :
    .sinkSet (BitVec.ofNat 9 (s.cc + 1).toNat) s.val ∈ boundaryEvents z s := by
  rw [boundaryEvents, if_neg hlong]
  exact List.mem_cons_self

/-- With short stop bits a slot boundary leaves the sinks (R183). -/
theorem boundary_sinks_of_short {z : Nat} {s : State} (hshort : s.sbc + (8 - z) ≤ 15) :
    (boundary z s).sinks = s.sinks := by
  rw [boundary, if_pos hshort]
  rfl

/-- An operation that stores nothing leaves the sinks: by `exec_stepOp_cases` only a slot boundary with long stop bits and
an early termination write them. -/
theorem exec_sinks_of_not_storing {i : Instr} {s t : State} (hst : storesToSink i = false) (hex : exec i s = .next t) :
    t.sinks = s.sinks := by
  by_cases hop : isStepOp i = true
  · obtain ⟨-, hreg⟩ | ⟨z, hev, rfl⟩ | ⟨rfl, -⟩ | ⟨-, rfl⟩ := exec_stepOp_cases hop hex
    · obtain ⟨-, hsinks, -, -⟩ := fields_of_unregistered_eq hreg
      exact hsinks
    · refine boundary_sinks_of_short (not_not.1 fun hlong => ?_)
      have hset := sinkSet_mem_boundaryEvents hlong
      rw [← hev] at hset
      exact sinkSet_not_mem_eventsOf s _ _ hst hset
    · cases hst
    · rfl
  · cases i with
    | construct start sink cb =>
      obtain ⟨-, rfl⟩ := execConstruct_eq_next hex
      rfl
    | parseBegin chunk size =>
      obtain ⟨-, -, -, rfl⟩ := execParseBegin_eq_next hex
      rfl
    | parseEnd =>
      obtain ⟨o, n, rfl⟩ := execParseEnd_eq_next hex
      rfl
    | _ => exact absurd rfl hop

/-- Settles O39: the sinks are the same memory, so they read the same everywhere. -/
theorem nonStoringOperationsKeepTheSink : Obligations.NonStoringOperationsKeepTheSink := by
  intro i s t hst hex a
  rw [exec_sinks_of_not_storing hst hex]

/-! ### The slot boundary (O40) -/

/-- What follows an accepted slot leaves the sinks (R185). -/
theorem afterAccept_sinks (z : Nat) (s : State) : (afterAccept z s).sinks = s.sinks := by
  unfold afterAccept
  split <;> rfl

/-- What a slot boundary that goes on does to the sinks: nothing with short stop bits, otherwise one write, inside the bound
sink (R183 to R185). -/
theorem slotBoundary_sinks {z : Nat} {s t : State} (h : slotBoundary z s = .next t) :
    (s.sbc + (8 - z) ≤ 15 ∧ t.sinks = s.sinks) ∨
    (15 < s.sbc + (8 - z) ∧ (s.cc + 1).toNat < 512 ∧
      t.sinks = Memory.write s.sinks (slotAddr s.sinkRef (s.cc + 1).toNat) s.val) := by
  obtain ⟨hshort, rfl⟩ | ⟨hlong, u, hu, rfl⟩ := slotBoundary_eq_next h
  · exact .inl ⟨hshort, rfl⟩
  · obtain ⟨-, hhigh, rfl⟩ := acceptChannel_eq_next hu
    exact .inr ⟨hlong, by omega, afterAccept_sinks ..⟩

/-- DSP.FALL is a slot boundary, and DSP.ALT one with `z = 7` (R183, R184). -/
theorem exec_eq_slotBoundary {i : Instr} {z : Nat} (s : State) (hi : i = .dspFall z ∨ (i = .dspAlt ∧ z = 7)) :
    exec i s = slotBoundary z s := by
  obtain rfl | ⟨rfl, rfl⟩ := hi <;> rfl

/-- Settles O40: without a write every address reads as before; with one, every address but the slot's does, and no other
slot has that address. -/
theorem slotBoundaryWritesOneSlot : Obligations.SlotBoundaryWritesOneSlot := by
  intro i z s t hi hex
  rw [exec_eq_slotBoundary s hi] at hex
  simp only [slot_eq_read]
  obtain ⟨hshort, hsinks⟩ | ⟨hlong, hslot, hsinks⟩ := slotBoundary_sinks hex
  · rw [hsinks]
    exact ⟨fun _ _ => rfl, fun _ _ => rfl, fun hlong => absurd hlong (not_lt.2 hshort), fun _ _ _ _ => rfl⟩
  · rw [hsinks]
    refine ⟨fun a ha => read_write_of_ne ha, fun hshort => absurd hlong (not_lt.2 hshort), fun _ => ?_,
      fun r k hk hother => read_write_of_ne ?_⟩
    · rw [Memory.read_write, if_pos rfl]
    · rw [ne_eq, slotAddr_inj_iff hk hslot, not_and_or]
      exact hother

/-! ### Early termination (O41) -/

/-- Early termination clears the addresses from slot `cc + 1` of the bound sink up to the next store and no other (R54,
R182). -/
theorem execDspEarly_read_sinks {s t : State} (h : execDspEarly s = .next t) (a : Nat) :
    Memory.read t.sinks a =
      if slotAddr s.sinkRef (s.cc + 1).toNat ≤ a ∧ a < slotAddr s.sinkRef 512 then some 0#8
      else Memory.read s.sinks a := by
  obtain ⟨hlow, hhigh, rfl⟩ := execDspEarly_eq_next h
  have hend : slotAddr s.sinkRef (s.cc + 1).toNat + (511 - s.cc).toNat = slotAddr s.sinkRef 512 := by
    simp only [slotAddr, slotCount_eq]
    omega
  exact (Memory.read_fill ..).trans (by rw [hend])

/-- A slot lies in the cleared range exactly when it is one of the bound sink above `cc`. -/
theorem slotAddr_mem_cleared_iff {q r k : Nat} {cc : Int} (hlow : -1 ≤ cc) (hhigh : cc ≤ 510) (hk : k < 512) :
    (slotAddr q (cc + 1).toNat ≤ slotAddr r k ∧ slotAddr r k < slotAddr q 512) ↔ r = q ∧ cc < (k : Int) := by
  simp only [slotAddr, slotCount_eq]
  omega

/-- Settles O41: `execDspEarly_read_sinks` at an address inside the range, outside it, and at a slot's. -/
theorem earlyTerminationClearsTheRest : Obligations.EarlyTerminationClearsTheRest := by
  intro s t hex
  have hread := execDspEarly_read_sinks hex
  obtain ⟨hlow, hhigh, -⟩ := execDspEarly_eq_next hex
  refine ⟨fun a hfrom hto => ?_, fun a hout => ?_, fun r k hk => ?_⟩
  · rw [hread, if_pos ⟨hfrom, hto⟩]
  · rw [hread, if_neg (by omega)]
  · simp only [slot_eq_read, hread, slotAddr_mem_cleared_iff hlow hhigh hk]

/-! ### Accesses outside the memories (O30) -/

/-- MemWrite(SINK:i, 1, v) outside the sink (U8; log 10). -/
theorem sinkSet_of_outside {i : Int} (v : Byte) (s : State) (h : ¬(0 ≤ i ∧ i < 512)) :
    sinkSet i v s = .refused .sinkOutOfRange :=
  if_neg h

/-- SinkFill from a start outside the sink (R54, U8; log 10). -/
theorem sinkFill_of_outside {a : Int} (v : Byte) (n : Int) (s : State) (h : ¬(0 ≤ a ∧ a < 512)) :
    sinkFill a v n s = .refused .sinkOutOfRange :=
  if_neg fun hin => h ⟨hin.1, hin.2.1⟩

/-- Early termination with `cc` outside its range (R54, U8; log 10). -/
theorem execDspEarly_of_outside {s : State} (hcc : s.cc < -1 ∨ 510 < s.cc) :
    execDspEarly s = .refused .sinkOutOfRange := by
  rw [execDspEarly, sinkFill_of_outside _ _ _ (by omega), andThen_refused]

/-- A slot boundary with long stop bits and `cc` outside its range (U8; log 10). -/
theorem slotBoundary_of_outside {z : Nat} {s : State} (hcc : s.cc < -1 ∨ 510 < s.cc) (hlong : 15 < s.sbc + (8 - z)) :
    slotBoundary z s = .refused .sinkOutOfRange := by
  have hnot : ¬stopTooShort (onesTotal s.sbc z) = true := by
    rw [stopTooShort_iff]
    exact not_le.2 hlong
  rw [slotBoundary, if_neg hnot, acceptChannel, sinkSet_of_outside _ _ (by omega), andThen_refused, andThen_refused]

/-- Settles O30: the look-back is outside the chunk, and slot `cc + 1` is outside the sink. -/
theorem accessesOutsideTheMemoriesStop : Obligations.AccessesOutsideTheMemoriesStop := by
  refine ⟨fun s b hpc => ?_, fun s hcc => ?_, fun s z hcc hlong => ?_, fun s hcc hlong => ?_⟩
  · exact readCap_of_outside _ (by omega)
  · exact execDspEarly_of_outside hcc
  · exact slotBoundary_of_outside hcc hlong
  · exact slotBoundary_of_outside hcc hlong

end Sys2Proof.Proofs

/-! The encoding (O6, O7, O8, O31, O32): the edge bytes, and the operation a step word selects against the word an operation
is encoded to. -/

namespace Sys2Proof.Proofs

open Sys2Proof.Machine Sys2Proof.Claims

/-! ### The edge bytes and the edge detectors -/

/-- The counts of the falling edges, in the order of the table's rows. -/
def fallCounts : List Nat := [8, 7, 6, 5, 4, 3, 2, 1]

/-- The counts of the rising edges, in the order of the table's rows. -/
def riseCounts : List Nat := [1, 2, 3, 4, 5, 6, 7, 8]

/-- The falling-edge detector is a search through the falling-edge bytes (R84, R130). -/
theorem fallingEdge_eq_find (b : Byte) : fallingEdge b = fallCounts.find? fun z => b == fallByte z := by
  revert b
  decide

/-- The rising-edge detector is a search through the rising-edge bytes (R85, R131). -/
theorem risingEdge_eq_find (b : Byte) : risingEdge b = riseCounts.find? fun o => b == riseByte o := by
  revert b
  decide

/-- A falling edge is the byte that its count is encoded to. -/
theorem eq_fallByte {b : Byte} {z : Nat} (h : fallingEdge b = some z) : b = fallByte z := by
  rw [fallingEdge_eq_find] at h
  exact eq_of_beq (List.find?_some (p := fun z => b == fallByte z) h)

/-- A rising edge is the byte that its count is encoded to. -/
theorem eq_riseByte {b : Byte} {o : Nat} (h : risingEdge b = some o) : b = riseByte o := by
  rw [risingEdge_eq_find] at h
  exact eq_of_beq (List.find?_some (p := fun o => b == riseByte o) h)

theorem edgeCount_iff (n : Nat) : edgeCount n = true ↔ 1 ≤ n ∧ n ≤ 8 := by
  rw [edgeCount, Bool.and_eq_true, decide_eq_true_iff, decide_eq_true_iff]

/-- A count is read back from its falling-edge byte. -/
theorem fallingEdge_fallByte {z : Nat} (hz : edgeCount z = true) : fallingEdge (fallByte z) = some z := by
  obtain rfl | rfl | rfl | rfl | rfl | rfl | rfl | rfl := Laws.edgeCount_cases hz <;> rfl

/-- A count is read back from its rising-edge byte. -/
theorem risingEdge_riseByte {o : Nat} (ho : edgeCount o = true) : risingEdge (riseByte o) = some o := by
  obtain rfl | rfl | rfl | rfl | rfl | rfl | rfl | rfl := Laws.edgeCount_cases ho <;> rfl

/-- No falling edge is the level byte of ones. -/
theorem fallByte_ne_ones {z : Nat} (hz : edgeCount z = true) : fallByte z ≠ 0xFF#8 := by
  intro h
  have hedge := fallingEdge_fallByte hz
  rw [h] at hedge
  cases hedge

/-- No rising edge is the level byte of zeros. -/
theorem riseByte_ne_zeros {o : Nat} (ho : edgeCount o = true) : riseByte o ≠ 0x00#8 := by
  intro h
  have hedge := risingEdge_riseByte ho
  rw [h] at hedge
  cases hedge

/-- Of the falling edges only the one of eight low samples is the level byte of zeros. -/
theorem eq_eight_of_fallByte_eq_zeros {z : Nat} (hz : edgeCount z = true) (h : fallByte z = 0x00#8) : z = 8 := by
  have hedge := fallingEdge_fallByte hz
  rw [h] at hedge
  cases hedge
  rfl

/-! ### The state codes and the parts of a step word (O6) -/

/-- The code of a step word is its upper part. -/
theorem wordCode_toNat (w : BitVec 12) : (wordCode w).toNat = w.toNat / 256 := by
  rw [wordCode, BitVec.extractLsb'_toNat, Nat.shiftRight_eq_div_pow]
  omega

/-- A word is made of its code and its byte. -/
theorem wordCode_append_wordByte (w : BitVec 12) : wordCode w ++ wordByte w = w :=
  BitVec.extractLsb'_append_extractLsb'_eq_extractLsb' rfl |>.trans BitVec.extractLsb'_eq_self

/-- A code that stands for a state is that state's (R87). -/
theorem eq_stateCode {c : BitVec 4} {st : LineState} (h : stateOfCode c = some st) : c = stateCode st := by
  revert c
  cases st <;> decide

/-- The codes 9 to 15 stand for no state (R87, R94). -/
theorem stateOfCode_of_reserved {c : BitVec 4} (h : 9 ≤ c.toNat) : stateOfCode c = none := by
  revert c
  decide

/-- A word whose code stands for a state is that state's step word for its byte (R88). -/
theorem eq_stepWord {w : BitVec 12} {st : LineState} (h : stateOfCode (wordCode w) = some st) :
    w = stepWord st (wordByte w) := by
  rw [stepWord, ← eq_stateCode h, wordCode_append_wordByte]

/-- Settles O6: the nine codes one by one; a reserved code is read back to no state, and then no row is looked for. -/
theorem reservedCodesSelectNothing : Obligations.ReservedCodesSelectNothing := by
  refine ⟨fun st => ⟨?_, Laws.stateOfCode_stateCode st⟩, fun sbc val w hw => ?_⟩
  · cases st <;> decide
  · rw [← wordCode_toNat] at hw
    rw [decodeStep, stateOfCode_of_reserved hw]

/-- Settles O7: each word is decoded. -/
theorem writtenWordsDecode : Obligations.WrittenWordsDecode := by
  unfold Obligations.WrittenWordsDecode
  decide

/-! ### Decoding an encoded operation (O31) -/

/-- An operation with a step word is looked for by its state and its byte. -/
theorem decode_encode_eq_decodeByte {i : Instr} {st : LineState} {b : Byte} (sbc : Nat) (val : Byte)
    (hword : encode i = .step (stepWord st b)) : decode sbc val (encode i) = decodeByte sbc val st b := by
  rw [hword, decode, decodeStep_stepWord]

/-- An operation that a byte selects is read back from its word: the tests of R89 that stand before its row fail on its
byte, by its well-formedness and its register condition. -/
theorem decode_encode_of_stepOp {i : Instr} {sbc : Nat} {val : Byte} (hop : isStepOp i = true)
    (hwf : i.wellFormed = true) (hen : i.enabled sbc val = true) : decode sbc val (encode i) = some i := by
  cases i with
  | brkZero | wfmHold | mabOnes | scZero | scsOnes | dspOnes | dspAlt =>
    rw [decode_encode_eq_decodeByte sbc val rfl]
    rfl
  | wfbFall z | mabFall z | scsFall z =>
    rw [decode_encode_eq_decodeByte sbc val rfl]
    simp [decodeByte, decodeWaitForBreak, decodeInMab, decodeInStartcodeStopbits, fallByte_ne_ones hwf,
      fallingEdge_fallByte hwf]
  | wfmRise o | scRise o =>
    rw [decode_encode_eq_decodeByte sbc val rfl]
    simp [decodeByte, decodeWaitForMab, decodeInStartcode, riseByte_ne_zeros hwf, risingEdge_riseByte hwf]
  | wfbScan b | brkAbort b | wfmAbort b | mabNoise b | scNoise b | scsNoise b =>
    rw [decode_encode_eq_decodeByte sbc val rfl]
    simp only [Instr.wellFormed, Bool.and_eq_true, bne_iff_ne, Option.isNone_iff_eq_none] at hwf
    simp [decodeByte, decodeWaitForBreak, decodeInBreak, decodeWaitForMab, decodeInMab, decodeInStartcode,
      decodeInStartcodeStopbits, hwf]
  | dspNoise b =>
    have hzeros : b ≠ 0x00#8 := by
      rintro rfl
      cases hwf
    rw [decode_encode_eq_decodeByte sbc val rfl]
    simp only [Instr.wellFormed, Bool.and_eq_true, bne_iff_ne, Option.isNone_iff_eq_none] at hwf
    simp [decodeByte, decodeInDataStopbits, hzeros, hwf]
  | dsbPrev b =>
    rw [decode_encode_eq_decodeByte sbc val rfl]
    exact congrArg some (if_pos hen)
  | dsbCur b =>
    have hearly : startSampleInPrev sbc = false := by simpa [Instr.enabled] using hen
    rw [decode_encode_eq_decodeByte sbc val rfl]
    exact congrArg some (if_neg (Bool.eq_false_iff.1 hearly))
  | dbBit b =>
    rw [decode_encode_eq_decodeByte sbc val rfl]
    exact if_pos ((dbBit_enabled ..).1 hen)
  | dbLast b =>
    obtain rfl := (dbLast_enabled ..).1 hen
    rw [decode_encode_eq_decodeByte 7 val rfl]
    rfl
  | dspEarly =>
    rw [decode_encode_eq_decodeByte sbc val rfl, decodeByte, decodeInDataStopbits, if_neg (by decide),
      if_pos ⟨rfl, hen⟩]
  | dspFall z =>
    have hnot : ¬(fallByte z = 0x00#8 ∧ earlyTermination sbc val = true) := by
      rintro ⟨hzero, hearly⟩
      simp [Instr.enabled, eq_eight_of_fallByte_eq_zeros hwf hzero, hearly] at hen
    rw [decode_encode_eq_decodeByte sbc val rfl, decodeByte, decodeInDataStopbits, if_neg (fallByte_ne_ones hwf),
      if_neg hnot, fallingEdge_fallByte hwf]
  | construct | parseBegin | parseEnd => cases hop

/-- Settles O31: the operations a byte selects by `decode_encode_of_stepOp`, the host's by their request bits. -/
theorem decodeOfEncodeIsTheOperation : Obligations.DecodeOfEncodeIsTheOperation := by
  intro i sbc val hwf hen
  by_cases hop : isStepOp i = true
  · exact decode_encode_of_stepOp hop hwf hen
  · cases i with
    | construct | parseBegin | parseEnd => rfl
    | _ => exact absurd rfl hop

/-! ### Encoding a decoded operation (O32) -/

/-- What an operation has to meet to be the one that a byte selects in a state: the three parts of O32. -/
structure Names (sbc : Nat) (val : Byte) (st : LineState) (b : Byte) (i : Instr) : Prop where
  wellFormed : i.wellFormed = true
  enabled : i.enabled sbc val = true
  word : encode i = .step (stepWord st b)

section
variable {sbc : Nat} {val : Byte} {st : LineState} {b : Byte}

/-- An edge's operation, where its word and its well-formedness are those of the edge. -/
theorem names_of_edge {i : Instr} {n : Nat} {c : Byte} (hn : 1 ≤ n ∧ n ≤ 8) (hb : b = c)
    (hwf : i.wellFormed = edgeCount n) (hen : i.enabled sbc val = true) (hword : encode i = .step (stepWord st c)) :
    Names sbc val st b i where
  wellFormed := hwf.trans ((edgeCount_iff n).2 hn)
  enabled := hen
  word := by rw [hword, hb]

/-- The ordered tests of R89 select an operation that meets the three parts of O32. -/
theorem names_of_decodeByte {i : Instr} (h : decodeByte sbc val st b = some i) : Names sbc val st b i := by
  cases st with
  | waitForBreak =>
    cases h
    unfold decodeWaitForBreak
    split
    · next hz => exact names_of_edge (fallingEdge_bounds hz) (eq_fallByte hz) rfl rfl rfl
    · next hz => exact ⟨by simp [Instr.wellFormed, hz], rfl, rfl⟩
  | inBreak =>
    cases h
    unfold decodeInBreak
    split
    · next hb => exact ⟨rfl, rfl, by rw [hb]; rfl⟩
    · next hb => exact ⟨by simp [Instr.wellFormed, hb], rfl, rfl⟩
  | waitForMab | inStartcode =>
    cases h
    simp only [decodeWaitForMab, decodeInStartcode]
    split
    · next hb => exact ⟨rfl, rfl, by rw [hb]; rfl⟩
    · next hb =>
      split
      · next ho => exact names_of_edge (risingEdge_bounds ho) (eq_riseByte ho) rfl rfl rfl
      · next ho => exact ⟨by simp [Instr.wellFormed, hb, ho], rfl, rfl⟩
  | inMab | inStartcodeStopbits =>
    cases h
    simp only [decodeInMab, decodeInStartcodeStopbits]
    split
    · next hb => exact ⟨rfl, rfl, by rw [hb]; rfl⟩
    · next hb =>
      split
      · next hz => exact names_of_edge (fallingEdge_bounds hz) (eq_fallByte hz) rfl rfl rfl
      · next hz => exact ⟨by simp [Instr.wellFormed, hb, hz], rfl, rfl⟩
  | inDataStartbit =>
    cases h
    unfold decodeInDataStartbit
    split
    · next hlate => exact ⟨rfl, hlate, rfl⟩
    · next hearly => exact ⟨rfl, by rw [Instr.enabled, Bool.eq_false_iff.2 hearly]; rfl, rfl⟩
  | inDataBits =>
    simp only [decodeByte, decodeInDataBits] at h
    split at h
    · next hmore =>
      cases h
      exact ⟨rfl, (dbBit_enabled ..).2 hmore, rfl⟩
    · split at h
      · next hlast =>
        cases h
        exact ⟨rfl, (dbLast_enabled ..).2 hlast, rfl⟩
      · cases h
  | inDataStopbits =>
    cases h
    unfold decodeInDataStopbits
    split
    · next hb => exact ⟨rfl, rfl, by rw [hb]; rfl⟩
    · next hones =>
      split
      · next hearly => exact ⟨rfl, hearly.2, by rw [hearly.1]; rfl⟩
      · next hnot =>
        split
        · next z hz =>
          refine names_of_edge (fallingEdge_bounds hz) (eq_fallByte hz) rfl ?_ rfl
          have hlevel : z = 8 → b = 0x00#8 := fun h8 => by rw [eq_fallByte hz, h8]; rfl
          simp only [Instr.enabled, Bool.not_eq_true', Bool.and_eq_false_imp, decide_eq_true_eq]
          exact fun h8 => Bool.eq_false_iff.2 fun hearly => hnot ⟨hlevel h8, hearly⟩
        · next hz =>
          split
          · next hb => exact ⟨rfl, rfl, by rw [hb]; rfl⟩
          · next hb => exact ⟨by simp [Instr.wellFormed, hones, hz, hb], rfl, rfl⟩

end

/-- Settles O32: the word is its state's step word for its byte, so the operation's word is the same. -/
theorem encodeOfDecodeIsTheWord : Obligations.EncodeOfDecodeIsTheWord := by
  intro sbc val w i h
  unfold decodeStep at h
  split at h
  · next st hst =>
    obtain ⟨hwf, hen, hword⟩ := names_of_decodeByte h
    exact ⟨hwf, hen, by rw [hword, ← eq_stepWord hst]⟩
  · cases h

/-! ### The operation a step performs (O8) -/

/-- Between calls the oldest request is looked at (R99; log 6). -/
theorem fetch_of_request {s : State} {q : HostRequest} {rest : List HostRequest} (hidle : s.busy = false)
    (hreq : s.requests = q :: rest) : fetch s = if q.rst || q.start then .word (.host q) else .idle := by
  simp [fetch, hidle, hreq]

/-- The oldest request is taken from the list (R99; log 6). -/
theorem taken_of_request {s : State} {q : HostRequest} {rest : List HostRequest} (hidle : s.busy = false)
    (hreq : s.requests = q :: rest) : taken s = { s with requests := rest } := by
  rw [taken_of_idle s hidle, hreq, List.tail_cons]

/-- A request that selects an operation has it performed (R99; log 6). -/
theorem step_of_request {s : State} {q : HostRequest} {rest : List HostRequest} {i : Instr} (hidle : s.busy = false)
    (hreq : s.requests = q :: rest) (hset : (q.rst || q.start) = true) (hi : decodeHost q = some i) :
    step s = exec i { s with requests := rest } := by
  simp only [step, fetch_of_request hidle hreq, if_pos hset, decode, hi, taken_of_request hidle hreq]

/-- Settles O8: during a call the byte at `pc` or the end of the chunk, between calls the oldest request by its two bits. -/
theorem stepRunsTheSelectedOperation : Obligations.StepRunsTheSelectedOperation := by
  refine ⟨fun s st b i hx hi => ?_, fun s hbusy hpc => ?_, fun s q rest hidle hreq hrst => ?_,
    fun s q rest hidle hreq hrst hstart => ?_, fun s q rest hidle hreq hrst hstart => ?_, fun s hidle hreq => ?_⟩
  · rw [decode, decodeStep_stepWord] at hi
    exact step_of_decodeByte_some hx hi
  · simp only [step, fetch_of_end hbusy hpc, decode, taken_of_busy s hbusy]
  · exact step_of_request hidle hreq (by simp [hrst]) (by simp [decodeHost, hrst])
  · exact step_of_request hidle hreq (by simp [hstart]) (by simp [decodeHost, hrst, hstart])
  · simp [step, fetch_of_request hidle hreq, hrst, hstart, taken_of_request hidle hreq]
  · have hfetch : fetch s = .idle := by simp [fetch, hidle, hreq]
    have htaken : taken s = s := by
      rw [taken_of_idle s hidle, hreq, List.tail_nil, ← hreq]
    simp only [step, hfetch, htaken]

end Sys2Proof.Proofs

/-! The opcode table (O33): the first row of R88 against the ordered tests of R89, state by state. -/

namespace Sys2Proof.Proofs

open Sys2Proof.Machine Sys2Proof.Claims

/-! ### Searching rows for a step word -/

/-- The procedure of R88 over any rows: what the first row that takes the word names. -/
def firstTaken (sbc : Nat) (val : Byte) (w : BitVec 12) (rows : List OpcodeRow) : Option Instr :=
  (rows.find? fun r => r.takes sbc val w).map fun r => r.build (wordByte w)

theorem decodeByTable_eq_firstTaken (sbc : Nat) (val : Byte) (w : BitVec 12) :
    decodeByTable sbc val w = firstTaken sbc val w stepRows := rfl

/-- The row of one state and one byte. -/
def byteRow (st : LineState) (c : Byte) (cond : Nat → Byte → Bool) (i : Instr) : OpcodeRow :=
  ⟨stepWord st c, 0xFFF#12, cond, fun _ => i⟩

/-- The row of one state and every byte. -/
def stateRow (st : LineState) (cond : Nat → Byte → Bool) (f : Byte → Instr) : OpcodeRow :=
  ⟨stepWord st 0x00#8, 0xF00#12, cond, f⟩

/-- The rows of the edge bytes of some counts. -/
def edgeRows (st : LineState) (edgeByte : Nat → Byte) (f : Nat → Instr) (counts : List Nat) : List OpcodeRow :=
  counts.map fun n => byteRow st (edgeByte n) always (f n)

section
variable (sbc : Nat) (val : Byte) (st : LineState) (b : Byte) (rows : List OpcodeRow)

theorem stepWord_eq_iff (c : Byte) : stepWord st b = stepWord st c ↔ b = c := by
  refine ⟨fun h => ?_, fun h => h ▸ rfl⟩
  rw [← Laws.wordByte_stepWord st b, h, Laws.wordByte_stepWord]

@[simp] theorem byteRow_takes (c : Byte) (cond : Nat → Byte → Bool) (i : Instr) :
    (byteRow st c cond i).takes sbc val (stepWord st b) = (decide (b = c) && cond sbc val) := by
  have hmask : stepWord st b &&& 0xFFF#12 = stepWord st b := BitVec.and_allOnes
  simp only [byteRow, OpcodeRow.takes, hmask, stepWord_eq_iff]

@[simp] theorem stateRow_takes (cond : Nat → Byte → Bool) (f : Byte → Instr) :
    (stateRow st cond f).takes sbc val (stepWord st b) = cond sbc val := by
  simp [stateRow, OpcodeRow.takes, Laws.stepWord_and_f00]

@[simp] theorem firstTaken_nil (w : BitVec 12) : firstTaken sbc val w [] = none := rfl

/-- A byte's row names its operation for its byte under its condition. -/
@[simp] theorem firstTaken_byteRow (c : Byte) (cond : Nat → Byte → Bool) (i : Instr) :
    firstTaken sbc val (stepWord st b) (byteRow st c cond i :: rows) =
      if b = c ∧ cond sbc val = true then some i else firstTaken sbc val (stepWord st b) rows := by
  rw [firstTaken, List.find?_cons, byteRow_takes]
  by_cases h : b = c ∧ cond sbc val = true
  · rw [if_pos h, h.2, decide_eq_true h.1]
    rfl
  · rw [if_neg h]
    have hnot : (decide (b = c) && cond sbc val) = false := by simpa using h
    rw [hnot]
    rfl

/-- A state's row names its operation under its condition. -/
@[simp] theorem firstTaken_stateRow (cond : Nat → Byte → Bool) (f : Byte → Instr) :
    firstTaken sbc val (stepWord st b) (stateRow st cond f :: rows) =
      if cond sbc val = true then some (f b) else firstTaken sbc val (stepWord st b) rows := by
  rw [firstTaken, List.find?_cons, stateRow_takes]
  cases h : cond sbc val
  · rfl
  · simp [stateRow, Laws.wordByte_stepWord]

/-- The rows of some edge bytes name the operation of the first count whose edge byte is the word's. -/
theorem firstTaken_edgeRows (edgeByte : Nat → Byte) (f : Nat → Instr) (counts : List Nat) :
    firstTaken sbc val (stepWord st b) (edgeRows st edgeByte f counts ++ rows) =
      ((counts.find? fun n => b == edgeByte n).map f).or (firstTaken sbc val (stepWord st b) rows) := by
  induction counts with
  | nil => rfl
  | cons n counts ih =>
    rw [edgeRows, List.map_cons, List.cons_append, firstTaken_byteRow, List.find?_cons]
    by_cases hb : b = edgeByte n
    · simp [hb, always]
    · rw [if_neg (fun h => hb h.1), beq_false_of_ne hb]
      exact ih

/-- The rows of the falling edges name what the detector finds (R84). -/
@[simp] theorem firstTaken_fallRows (f : Nat → Instr) :
    firstTaken sbc val (stepWord st b) (edgeRows st fallByte f fallCounts ++ rows) =
      ((fallingEdge b).map f).or (firstTaken sbc val (stepWord st b) rows) := by
  rw [firstTaken_edgeRows, ← fallingEdge_eq_find]

/-- The rows of the rising edges name what the detector finds (R85). -/
@[simp] theorem firstTaken_riseRows (f : Nat → Instr) :
    firstTaken sbc val (stepWord st b) (edgeRows st riseByte f riseCounts ++ rows) =
      ((risingEdge b).map f).or (firstTaken sbc val (stepWord st b) rows) := by
  rw [firstTaken_edgeRows, ← risingEdge_eq_find]

end

/-! ### The rows of one state -/

/-- The rows of a state, by the bytes they take. -/
def rowsOf : LineState → List OpcodeRow
  | .waitForBreak => edgeRows .waitForBreak fallByte .wfbFall fallCounts ++ [stateRow .waitForBreak always .wfbScan]
  | .inBreak => [byteRow .inBreak 0x00#8 always .brkZero, stateRow .inBreak always .brkAbort]
  | .waitForMab =>
    byteRow .waitForMab 0x00#8 always .wfmHold ::
      (edgeRows .waitForMab riseByte .wfmRise riseCounts ++ [stateRow .waitForMab always .wfmAbort])
  | .inMab =>
    byteRow .inMab 0xFF#8 always .mabOnes ::
      (edgeRows .inMab fallByte .mabFall fallCounts ++ [stateRow .inMab always .mabNoise])
  | .inStartcode =>
    byteRow .inStartcode 0x00#8 always .scZero ::
      (edgeRows .inStartcode riseByte .scRise riseCounts ++ [stateRow .inStartcode always .scNoise])
  | .inStartcodeStopbits =>
    byteRow .inStartcodeStopbits 0xFF#8 always .scsOnes ::
      (edgeRows .inStartcodeStopbits fallByte .scsFall fallCounts ++ [stateRow .inStartcodeStopbits always .scsNoise])
  | .inDataStartbit => [stateRow .inDataStartbit sbcAtLeast4 .dsbPrev, stateRow .inDataStartbit sbcBelow4 .dsbCur]
  | .inDataBits => [stateRow .inDataBits sbcBelow7 .dbBit, stateRow .inDataBits sbcIs7 .dbLast]
  | .inDataStopbits =>
    byteRow .inDataStopbits 0xFF#8 always .dspOnes :: byteRow .inDataStopbits 0x00#8 sbcAtMost11ValZero .dspEarly ::
      (edgeRows .inDataStopbits fallByte .dspFall fallCounts ++
        [byteRow .inDataStopbits 0x01#8 always .dspAlt, stateRow .inDataStopbits always .dspNoise])

/-- The rows of the table that carry a state's code are that state's. -/
theorem filter_stepRows (st : LineState) :
    (stepRows.filter fun r => wordCode r.mtch == stateCode st) = rowsOf st := by
  cases st <;> rfl

/-- The first row of a state that takes a byte names what the ordered tests of R89 select. -/
theorem firstTaken_rowsOf (sbc : Nat) (val : Byte) (st : LineState) (b : Byte) :
    firstTaken sbc val (stepWord st b) (rowsOf st) = decodeByte sbc val st b := by
  cases st with
  | waitForBreak =>
    simp only [rowsOf, firstTaken_fallRows, firstTaken_stateRow, always, decodeByte, decodeWaitForBreak]
    cases fallingEdge b <;> rfl
  | inBreak =>
    simp only [rowsOf, firstTaken_byteRow, firstTaken_stateRow, always, and_true, decodeByte, decodeInBreak]
    split <;> rfl
  | waitForMab | inStartcode =>
    simp only [rowsOf, firstTaken_byteRow, firstTaken_riseRows, firstTaken_stateRow, always, and_true, decodeByte,
      decodeWaitForMab, decodeInStartcode]
    split
    · rfl
    · cases risingEdge b <;> rfl
  | inMab | inStartcodeStopbits =>
    simp only [rowsOf, firstTaken_byteRow, firstTaken_fallRows, firstTaken_stateRow, always, and_true, decodeByte,
      decodeInMab, decodeInStartcodeStopbits]
    split
    · rfl
    · cases fallingEdge b <;> rfl
  | inDataStartbit =>
    simp only [rowsOf, firstTaken_stateRow, firstTaken_nil, sbcAtLeast4, sbcBelow4, decide_eq_true_eq, decodeByte,
      decodeInDataStartbit, startSampleInPrev_iff]
    by_cases hlate : 4 ≤ sbc
    · rw [if_pos hlate, if_pos hlate]
    · rw [if_neg hlate, if_neg hlate, if_pos (not_le.1 hlate)]
  | inDataBits =>
    simp only [rowsOf, firstTaken_stateRow, firstTaken_nil, sbcBelow7, sbcIs7, decide_eq_true_eq, decodeByte,
      decodeInDataBits]
  | inDataStopbits =>
    have hcond : sbcAtMost11ValZero sbc val = earlyTermination sbc val := rfl
    simp only [rowsOf, firstTaken_byteRow, firstTaken_fallRows, firstTaken_stateRow, always, and_true, hcond, decodeByte,
      decodeInDataStopbits]
    split
    · rfl
    · split
      · rfl
      · cases fallingEdge b with
        | some z => rfl
        | none => split <;> rfl

/-! ### The whole table (O33) -/

/-- Every row tests the whole state code. -/
theorem wordCode_mask {r : OpcodeRow} (hr : r ∈ stepRows) : wordCode r.mask = 0xF#4 := by
  have hall : stepRows.all (fun r => wordCode r.mask == 0xF#4) = true := rfl
  exact eq_of_beq (List.all_eq_true.1 hall r hr)

/-- No row carries a reserved code (R87, R94). -/
theorem stateOfCode_mtch {r : OpcodeRow} (hr : r ∈ stepRows) : (stateOfCode (wordCode r.mtch)).isSome = true := by
  have hall : stepRows.all (fun r => (stateOfCode (wordCode r.mtch)).isSome) = true := rfl
  exact List.all_eq_true.1 hall r hr

/-- A row takes only words that have its state code. -/
theorem wordCode_mtch_of_takes {r : OpcodeRow} {sbc : Nat} {val : Byte} {w : BitVec 12} (hr : r ∈ stepRows)
    (h : r.takes sbc val w = true) : wordCode r.mtch = wordCode w := by
  rw [OpcodeRow.takes, Bool.and_eq_true, decide_eq_true_eq] at h
  calc wordCode r.mtch = wordCode (w &&& r.mask) := by rw [h.1]
    _ = wordCode w &&& wordCode r.mask := BitVec.extractLsb'_and
    _ = wordCode w := by rw [wordCode_mask hr]; exact BitVec.and_allOnes

/-- The search through the table is one through the rows that carry the word's code. -/
theorem firstTaken_stepRows (sbc : Nat) (val : Byte) (w : BitVec 12) :
    firstTaken sbc val w stepRows = firstTaken sbc val w (stepRows.filter fun r => wordCode r.mtch == wordCode w) := by
  rw [firstTaken, firstTaken, List.find?_filter]
  congr 1
  refine List.find?_congr fun r hr => ?_
  cases h : r.takes sbc val w
  · simp
  · simp [wordCode_mtch_of_takes hr h]

/-- Settles O33: a word with a reserved code has no row; the others are decided among the rows of their state. -/
theorem tableOrderAgreesWithTheOrderedTests : Obligations.TableOrderAgreesWithTheOrderedTests := by
  intro sbc val w
  cases hst : stateOfCode (wordCode w) with
  | none =>
    rw [decodeStep, hst, decodeByTable_eq_firstTaken, firstTaken, Option.map_eq_none_iff, List.find?_eq_none]
    intro r hr htakes
    have hcode := stateOfCode_mtch hr
    rw [wordCode_mtch_of_takes hr htakes, hst] at hcode
    cases hcode
  | some st =>
    rw [decodeByTable_eq_firstTaken, firstTaken_stepRows, eq_stateCode hst, filter_stepRows, eq_stepWord hst,
      firstTaken_rowsOf, decodeStep_stepWord]

end Sys2Proof.Proofs

/-! The advance of `pc` (O43), and runs over the next bytes of a chunk (O50, O51). -/

namespace Sys2Proof.Proofs

open Sys2Proof.Machine Sys2Proof.Claims

/-! ### The advance of `pc` (O43) -/

/-- The start-bit test moves no cursor (R171, R172). -/
@[simp] theorem checkStartBit_pc (bit : Byte) (p : Nat) (s : State) : (checkStartBit bit p s).pc = s.pc := by
  obtain ⟨-, h⟩ | ⟨-, h⟩ := checkStartBit_cases bit p s <;> rw [h] <;> rfl

/-- A slot boundary consumes its byte in all three outcomes (R183 to R185). -/
@[simp] theorem boundary_pc (z : Nat) (s : State) : (boundary z s).pc = s.pc + 1 := by
  unfold boundary
  split
  · rfl
  · split <;> rfl

/-- Settles O43, by cases on the operation. -/
theorem pcAdvancesByTheTable : Obligations.PcAdvancesByTheTable := by
  intro i s t hop h
  cases i with
  | wfbFall | wfbScan | brkAbort | wfmHold | wfmRise | wfmAbort | mabOnes | mabNoise | scZero | scNoise | scsOnes
  | scsNoise | dbBit | dspOnes | dspNoise =>
    cases h
    rfl
  | mabFall | scRise | scsFall =>
    cases h
    split <;> rfl
  | brkZero => obtain ⟨-, rfl⟩ | ⟨-, rfl⟩ := execBrkZero_eq_next h <;> rfl
  | dsbPrev byte =>
    obtain ⟨prev, -, -, -, hk⟩ := readCap_eq_next h
    cases hk
    exact checkStartBit_pc ..
  | dsbCur byte =>
    cases h
    exact checkStartBit_pc ..
  | dbLast byte =>
    cases (execDbLast_eq byte s).symm.trans h
    rfl
  | dspEarly =>
    obtain ⟨-, -, rfl⟩ := execDspEarly_eq_next h
    rfl
  | dspFall | dspAlt =>
    cases slotBoundary_eq_boundary h
    exact boundary_pc ..
  | construct | parseBegin | parseEnd => cases hop

/-! ### Runs and the bytes ahead -/

/-- A run of `m + n` steps is one of `m` and then one of `n`. -/
theorem steps_add (m n : Nat) (s : State) : steps (m + n) s = andThen (steps m s) (steps n) := by
  induction m generalizing s with
  | zero => rw [Nat.zero_add]; rfl
  | succ m ih =>
    rw [Nat.succ_add, steps, steps]
    cases step s with
    | next t => exact ih t
    | fault r => rfl
    | refused r => rfl

/-- A run that begins with a known step. -/
theorem steps_succ_of_step {n : Nat} {s t : State} (h : step s = .next t) : steps (n + 1) s = steps n t := by
  rw [steps, h, andThen_next]

/-- A run that begins with a known run. -/
theorem steps_add_of_steps {m n : Nat} {s t : State} (h : steps m s = .next t) : steps (m + n) s = steps n t := by
  rw [steps_add, h, andThen_next]

section
variable {s : State} {b : Byte} {bs cs : List Byte}

/-- The first of the bytes ahead is the one that the machine examines. -/
theorem examines_of_nextBytes {st : LineState} (hn : NextBytes s (b :: bs)) (hbusy : s.busy = true)
    (hst : s.state = st) : Examines s st b := by
  obtain ⟨hsize, hread⟩ := hn
  rw [List.length_cons] at hsize
  exact ⟨hbusy, by omega, hst, hread 0 b rfl⟩

/-- The bytes behind the first `cs.length` lie ahead of a cursor that has passed these. -/
theorem nextBytes_drop {t : State} (hn : NextBytes s (cs ++ bs)) (hpc : t.pc = s.pc + cs.length)
    (hsize : t.size = s.size) (hchunk : t.chunk = s.chunk) : NextBytes t bs := by
  obtain ⟨hend, hread⟩ := hn
  rw [List.length_append] at hend
  refine ⟨by omega, fun k b hb => ?_⟩
  rw [hchunk, hpc, Nat.add_assoc]
  refine hread _ b ?_
  rw [List.getElem?_append_right (Nat.le_add_right ..), Nat.add_sub_cancel_left, hb]

/-- The bytes behind the first lie ahead of a cursor that has passed it. -/
theorem nextBytes_tail {t : State} (hn : NextBytes s (b :: bs)) (hpc : t.pc = s.pc + 1) (hsize : t.size = s.size)
    (hchunk : t.chunk = s.chunk) : NextBytes t bs :=
  nextBytes_drop (cs := [b]) hn hpc hsize hchunk

/-- The first of the bytes ahead lie ahead. -/
theorem nextBytes_left (hn : NextBytes s (cs ++ bs)) : NextBytes s cs := by
  obtain ⟨hend, hread⟩ := hn
  rw [List.length_append] at hend
  refine ⟨by omega, fun k b hb => hread k b ?_⟩
  rw [List.getElem?_append_left (List.getElem?_eq_some_iff.1 hb).1, hb]

end

/-! ### The length of the break (O50) -/

/-- A count that eight bits hold is counted on without saturation (R105). -/
theorem accumulate_of_le {s : State} (hw : WidthsOk s.widths) (h : s.sbc + 8 ≤ 255) :
    accumulate s = { s with sbc := s.sbc + 8 } := by
  rw [accumulate, saturate_of_le hw h]

/-- A zero byte in WAIT_FOR_MAB only moves the cursor (R144). -/
theorem step_of_hold {s : State} (hx : Examines s .waitForMab 0x00#8) : step s = .next { s with pc := s.pc + 1 } :=
  step_of_decodeByte_some hx rfl

/-- A zero byte in IN_BREAK that leaves the count below the threshold (R142). -/
theorem step_of_break_below {s : State} (hw : WidthsOk s.widths) (hx : Examines s .inBreak 0x00#8)
    (h : s.sbc + 8 ≤ 165) : step s = .next { s with sbc := s.sbc + 8, pc := s.pc + 1 } := by
  have hnot : ¬breakLongEnough (s.sbc + 8) = true := by
    rw [breakLongEnough_iff]
    exact not_lt.2 h
  rw [step_of_decodeByte_some hx rfl]
  simp only [exec, execBrkZero, accumulate_of_le hw (by omega), if_neg hnot]
  rfl

/-- A zero byte in IN_BREAK that takes the count past the threshold (R142, R115). -/
theorem step_of_break_past {s : State} (hw : WidthsOk s.widths) (hx : Examines s .inBreak 0x00#8) (hle : s.sbc ≤ 165)
    (h : 165 < s.sbc + 8) :
    step s = .next { s with state := .waitForMab, sbc := 0, cc := -1, pc := s.pc + 1 } := by
  rw [step_of_decodeByte_some hx rfl]
  simp only [exec, execBrkZero, accumulate_of_le hw (by omega), if_pos ((breakLongEnough_iff _).2 h)]
  rfl

/-- Any number of zero bytes is passed over in WAIT_FOR_MAB (R144). -/
theorem steps_of_hold {s : State} {n : Nat} (hbusy : s.busy = true) (hst : s.state = .waitForMab)
    (hn : NextBytes s (List.replicate n 0x00#8)) : steps n s = .next { s with pc := s.pc + n } := by
  induction n generalizing s with
  | zero => rfl
  | succ n ih =>
    have hpc : s.pc + 1 + n = s.pc + (n + 1) := by omega
    rw [steps_succ_of_step (step_of_hold (examines_of_nextBytes hn hbusy hst)), ← hpc]
    exact ih (s := { s with pc := s.pc + 1 }) hbusy hst (nextBytes_tail hn rfl rfl rfl)

/-- Settles O50, by induction on the number of bytes: below the threshold the next bytes are counted on, past it they are
held. -/
theorem zeroBytesMeasureTheBreak : Obligations.ZeroBytesMeasureTheBreak := by
  intro s n hw hbusy hst hle hn
  induction n generalizing s with
  | zero => exact ⟨fun _ => rfl, fun h => absurd hle (not_le.2 h)⟩
  | succ n ih =>
    have hx := examines_of_nextBytes hn hbusy hst
    have hpc : s.pc + 1 + n = s.pc + (n + 1) := by omega
    by_cases hbelow : s.sbc + 8 ≤ 165
    · have hsbc : s.sbc + 8 + 8 * n = s.sbc + 8 * (n + 1) := by omega
      rw [steps_succ_of_step (step_of_break_below hw hx hbelow), ← hsbc, ← hpc]
      exact ih { s with sbc := s.sbc + 8, pc := s.pc + 1 } hw hbusy hst hbelow (nextBytes_tail hn rfl rfl rfl)
    · refine ⟨fun h => by omega, fun _ => ?_⟩
      rw [steps_succ_of_step (step_of_break_past hw hx hle (by omega)), ← hpc]
      exact steps_of_hold hbusy rfl (nextBytes_tail hn rfl rfl rfl)

/-! ### The channel value (O51) -/

/-- The value after the data bits of some bytes, from data bit `k` on, ORed into `v` (R92). -/
def assembled (sp : Nat) : Nat → Byte → List Byte → Byte
  | _, v, [] => v
  | k, v, b :: bs => assembled sp (k + 1) (orDataBit v b sp k) bs

/-- The bits of a sample: the one at the sampling position, and zeros above it (R133). -/
theorem getLsbD_sample (b : Byte) (p j : Nat) : (sample b p).getLsbD j = (decide (j = 0) && b.getLsbD p) := by
  rw [sample, BitVec.getLsbD_and, BitVec.getLsbD_ushiftRight, BitVec.getLsbD_one]
  by_cases hj : j = 0
  · simp [hj]
  · simp [hj]

/-- ORing in data bit `k` changes that bit alone (R92). -/
theorem getLsbD_orDataBit (v b : Byte) (sp : Nat) {k j : Nat} (hj : j < 8) :
    (orDataBit v b sp k).getLsbD j = (v.getLsbD j || (decide (j = k) && b.getLsbD sp)) := by
  rw [orDataBit, BitVec.getLsbD_or, BitVec.getLsbD_shiftLeft, getLsbD_sample]
  congr 1
  obtain hlt | rfl | hgt := lt_trichotomy j k
  · simp [hlt, hlt.ne]
  · simp [hj]
  · simp [hgt.ne', Nat.sub_ne_zero_of_lt hgt]

/-- The bits of an assembled value: from data bit `k` on, bit `j` is also taken from byte `j - k` (R92). -/
theorem getLsbD_assembled (sp : Nat) {j : Nat} (hj : j < 8) (k : Nat) (v : Byte) (bs : List Byte) :
    (assembled sp k v bs).getLsbD j =
      (v.getLsbD j || (decide (k ≤ j) && bs[j - k]?.any fun b => b.getLsbD sp)) := by
  induction bs generalizing k v with
  | nil => simp [assembled]
  | cons b bs ih =>
    rw [assembled, ih, getLsbD_orDataBit v b sp hj, Bool.or_assoc]
    congr 1
    obtain hlt | rfl | hgt := lt_trichotomy j k
    · simp [hlt.ne, hlt.not_ge, show ¬k + 1 ≤ j by omega]
    · simp
    · have hsub : j - k = j - (k + 1) + 1 := by omega
      simp [hgt.ne', hgt.le, hsub, Nat.succ_le_of_lt hgt]

/-- The state after the data bits of the bytes `bs`, of which the last is data bit 7 (R173, R174). -/
def bitsRead (bs : List Byte) (s : State) : State :=
  { s with
    val := assembled s.sp s.sbc s.val bs
    state := .inDataStopbits
    sbc := if 4 ≤ s.sp then s.sp else s.sp + 8
    pc := if 4 ≤ s.sp then s.pc + bs.length else s.pc + bs.length + 1 }

/-- A data bit before the last (R173). -/
theorem step_of_dbBit {s : State} {b : Byte} (hx : Examines s .inDataBits b) (h : s.sbc < 7) :
    step s = .next { s with val := orDataBit s.val b s.sp s.sbc, sbc := s.sbc + 1, pc := s.pc + 1 } :=
  step_of_decodeByte_some hx (if_pos h)

/-- The last data bit (R174). -/
theorem step_of_dbLast {s : State} {b : Byte} (hx : Examines s .inDataBits b) (h : s.sbc = 7) :
    step s = .next (bitsRead [b] s) := by
  have hdecode : decodeByte s.sbc s.val .inDataBits b = some (.dbLast b) := by
    rw [h]
    rfl
  refine (step_of_decodeByte_some hx hdecode).trans ((execDbLast_eq b s).trans ?_)
  rw [bitsRead, h]
  split <;> rfl

/-- As many bytes as data bits are missing end IN_DATA_BITS, by induction on the bytes (R92, R173, R174). -/
theorem steps_of_dataBits {s : State} {bs : List Byte} (hbusy : s.busy = true) (hst : s.state = .inDataBits)
    (hlt : s.sbc < 8) (hlen : s.sbc + bs.length = 8) (hn : NextBytes s bs) :
    steps bs.length s = .next (bitsRead bs s) := by
  induction bs generalizing s with
  | nil => exact absurd hlen hlt.ne
  | cons b bs ih =>
    have hx := examines_of_nextBytes hn hbusy hst
    rw [List.length_cons] at hlen ⊢
    by_cases hlast : s.sbc = 7
    · obtain rfl : bs = [] := List.length_eq_zero_iff.1 (by omega)
      rw [steps_succ_of_step (step_of_dbLast hx hlast)]
      rfl
    · rw [steps_succ_of_step (step_of_dbBit hx (by omega)),
        ih (s := { s with val := orDataBit s.val b s.sp s.sbc, sbc := s.sbc + 1, pc := s.pc + 1 }) hbusy hst
          (show s.sbc + 1 < 8 by omega) (show s.sbc + 1 + bs.length = 8 by omega) (nextBytes_tail hn rfl rfl rfl)]
      have hpc : s.pc + 1 + bs.length = s.pc + (b :: bs).length := by
        rw [List.length_cons]
        omega
      simp only [bitsRead, assembled, hpc]

/-- Settles O51: the value is the one `assembled` from zeros, whose bit `k` is that of byte `k`. -/
theorem eightBytesAssembleTheValue : Obligations.EightBytesAssembleTheValue := by
  intro s bs hbusy hst hsbc hval hlen hn
  refine ⟨assembled s.sp 0 0#8 bs, ?_, fun k b hb => ?_⟩
  · have hrun := steps_of_dataBits hbusy hst (by omega) (by omega) hn
    rwa [bitsRead, hsbc, hval, hlen] at hrun
  · have hk : k < 8 := hlen ▸ (List.getElem?_eq_some_iff.1 hb).1
    rw [getLsbD_assembled s.sp hk, Nat.sub_zero, hb]
    simp

end Sys2Proof.Proofs

/-! Byte-aligned slots (O52, O53): the twelve steps of one slot, and a run over any number of them. -/

namespace Sys2Proof.Proofs

open Sys2Proof.Machine Sys2Proof.Claims

/-! ### The steps of an aligned slot -/

/-- The start bit of a slot is looked for in the byte before (R171). -/
theorem step_of_dsbPrev {s : State} {b prev : Byte} (hx : Examines s .inDataStartbit b) (hlate : 4 ≤ s.sbc)
    (hpc : 1 ≤ s.pc) (hprev : Memory.read s.chunk (s.pc - 1) = some prev) :
    step s = .next (checkStartBit (sample prev (samplePosPrev s.sbc)) (samplePosPrev s.sbc) s) := by
  have hdecode : decodeByte s.sbc s.val .inDataStartbit b = some (.dsbPrev b) :=
    congrArg some (if_pos ((startSampleInPrev_iff _).2 hlate))
  have haddr : ((s.pc : Int) - 1).toNat = s.pc - 1 := by omega
  have hin := hx.2.1
  rw [step_of_decodeByte_some hx hdecode]
  exact readCap_of_some _ (by omega) (by omega) (haddr ▸ hprev)

/-- After a zero byte the look-back finds a valid start bit and the sampling position 4 (R171). -/
theorem step_of_alignedStartBit {s : State} {b : Byte} (hx : Examines s .inDataStartbit b) (hsbc : s.sbc = 8)
    (hpc : 1 ≤ s.pc) (hprev : Memory.read s.chunk (s.pc - 1) = some 0x00#8) :
    step s = .next { s with state := .inDataBits, sbc := 0, sp := 4, val := 0#8 } := by
  rw [step_of_dsbPrev hx (by omega) hpc hprev, hsbc]
  rfl

/-- A byte of ones in the stop bits is counted (R181). -/
theorem step_of_dspOnes {s : State} (hx : Examines s .inDataStopbits 0xFF#8) (hw : WidthsOk s.widths)
    (h : s.sbc + 8 ≤ 255) : step s = .next { s with sbc := s.sbc + 8, pc := s.pc + 1 } := by
  rw [step_of_decodeByte_some hx rfl]
  simp only [exec, execDspOnes, accumulate_of_le hw h]
  rfl

/-- A slot boundary goes on with `cc` in its range (R183, R185, R188). -/
theorem slotBoundary_of_range {s : State} (z : Nat) (hlow : -1 ≤ s.cc) (hhigh : s.cc ≤ 510) :
    slotBoundary z s = .next (boundary z s) := by
  obtain ⟨t, ht⟩ : ∃ t, slotBoundary z s = .next t := by
    rw [slotBoundary, acceptChannel_of_range z hlow hhigh]
    split <;> exact ⟨_, rfl⟩
  rw [ht, slotBoundary_eq_boundary ht]

/-- With long stop bits and a slot before the last, a boundary writes the slot and waits for the next start bit (R185). -/
theorem boundary_of_accepted {s : State} {z : Nat} (hlong : 15 < s.sbc + (8 - z)) (hcc : s.cc ≤ 509) :
    boundary z s = { slotWritten s with state := .inDataStartbit, sbc := z, pc := s.pc + 1 } := by
  rw [boundary, if_neg (not_le.2 hlong), if_neg (by omega)]

/-- A zero byte after long stop bits ends a slot on the byte grid (R183, R185). -/
theorem step_of_alignedBoundary {s : State} (hx : Examines s .inDataStopbits 0x00#8) (hlong : 15 < s.sbc)
    (hlow : -1 ≤ s.cc) (hcc : s.cc ≤ 509) :
    step s = .next { slotWritten s with state := .inDataStartbit, sbc := 8, pc := s.pc + 1 } := by
  have hnot : ¬((0x00#8 : Byte) = 0x00#8 ∧ earlyTermination s.sbc s.val = true) := by
    rintro ⟨-, hearly⟩
    rw [earlyTermination_iff] at hearly
    omega
  have hdecode : decodeByte s.sbc s.val .inDataStopbits 0x00#8 = some (.dspFall 8) := by
    rw [decodeByte, decodeInDataStopbits, if_neg (by decide), if_neg hnot]
    rfl
  rw [step_of_decodeByte_some hx hdecode, ← boundary_of_accepted (z := 8) hlong hcc]
  exact slotBoundary_of_range 8 hlow (by omega)

/-! ### One slot (O52) -/

/-- The capture bytes of a value's data bits on the byte grid (R104). -/
def dataBytes (v : Byte) : List Byte := (List.range 8).map fun k => if v.getLsbD k then 0xFF#8 else 0x00#8

/-- The bytes of a slot are those of its data bits, two of stop bits and the next start bit (R104). -/
theorem slotBytes_eq (v : Byte) : slotBytes v = dataBytes v ++ [0xFF#8, 0xFF#8, 0x00#8] := rfl

/-- The data bytes of a value assemble to it, read in the middle of each byte (R92, R104). -/
theorem assembled_dataBytes (v : Byte) : assembled 4 0 0#8 (dataBytes v) = v := by
  refine BitVec.eq_of_getLsbD_eq fun j hj => ?_
  have hbyte : (dataBytes v)[j]? = some (if v.getLsbD j then 0xFF#8 else 0x00#8) := by
    rw [dataBytes, List.getElem?_map, List.getElem?_range hj]
    rfl
  rw [getLsbD_assembled 4 hj, Nat.sub_zero, hbyte]
  cases v.getLsbD j <;> simp

/-- The look-back and the data bits of a slot (R171, R173, R174). -/
theorem steps_of_alignedDataBits {s : State} {v : Byte} (hn : NextBytes s (dataBytes v)) (hbusy : s.busy = true)
    (hst : s.state = .inDataStartbit) (hsbc : s.sbc = 8) (hpc : 1 ≤ s.pc)
    (hprev : Memory.read s.chunk (s.pc - 1) = some 0x00#8) :
    steps 9 s = .next { s with state := .inDataStopbits, sbc := 4, sp := 4, val := v, pc := s.pc + 8 } := by
  have hrun : steps 8 { s with state := .inDataBits, sbc := 0, sp := 4, val := 0#8 } = .next (bitsRead (dataBytes v) _) :=
    steps_of_dataBits (bs := dataBytes v) hbusy rfl (show 0 < 8 by decide) rfl hn
  rw [steps_succ_of_step (step_of_alignedStartBit (examines_of_nextBytes hn hbusy hst) hsbc hpc hprev), hrun]
  simp only [bitsRead, assembled_dataBytes]
  rfl

/-- The two bytes of stop bits and the boundary of a slot (R181, R183). -/
theorem steps_of_alignedStopBits {s : State} (hn : NextBytes s [0xFF#8, 0xFF#8, 0x00#8]) (hw : WidthsOk s.widths)
    (hbusy : s.busy = true) (hst : s.state = .inDataStopbits) (hsbc : s.sbc = 4) (hlow : -1 ≤ s.cc) (hcc : s.cc ≤ 509) :
    steps 3 s = .next { slotWritten s with state := .inDataStartbit, sbc := 8, pc := s.pc + 3 } := by
  have hn₁ : NextBytes { s with sbc := s.sbc + 8, pc := s.pc + 1 } [0xFF#8, 0x00#8] := nextBytes_tail hn rfl rfl rfl
  have hn₂ : NextBytes { s with sbc := s.sbc + 8 + 8, pc := s.pc + 1 + 1 } [0x00#8] := nextBytes_tail hn₁ rfl rfl rfl
  have hsmall : s.sbc + 8 + 8 ≤ 255 := by omega
  have hlong : 15 < s.sbc + 8 + 8 := by omega
  rw [steps_succ_of_step (step_of_dspOnes (examines_of_nextBytes hn hbusy hst) hw (by omega)),
    steps_succ_of_step (step_of_dspOnes (examines_of_nextBytes hn₁ hbusy hst) hw hsmall),
    steps_succ_of_step (step_of_alignedBoundary (examines_of_nextBytes hn₂ hbusy hst) hlong hlow hcc)]
  rfl

/-- Settles O52: the look-back and the data bits of the slot, then its stop bits. -/
theorem anAlignedSlotIsWritten : Obligations.AnAlignedSlotIsWritten := by
  intro s v hw hbusy hst hsbc hpc hprev hn hlow hcc
  rw [slotBytes_eq] at hn
  have hstop : NextBytes { s with state := .inDataStopbits, sbc := 4, sp := 4, val := v, pc := s.pc + 8 }
      [0xFF#8, 0xFF#8, 0x00#8] := nextBytes_drop hn rfl rfl rfl
  rw [steps_add_of_steps (n := 3) (steps_of_alignedDataBits (nextBytes_left hn) hbusy hst hsbc hpc hprev),
    steps_of_alignedStopBits hstop hw hbusy rfl rfl hlow hcc]
  simp only [slotWritten, hst, hsbc]

/-! ### Any number of slots (O53) -/

/-- The events of slots written one after the other, from slot `cc + 1` on (R53, R189). -/
theorem mapIdx_sinkSet_cons (cc : Int) (v : Byte) (vs : List Byte) :
    (v :: vs).mapIdx (fun k v => OutEvent.sinkSet (BitVec.ofNat 9 (cc + 1 + (k : Int)).toNat) v) =
      .sinkSet (BitVec.ofNat 9 (cc + 1).toNat) v ::
        vs.mapIdx (fun k v => OutEvent.sinkSet (BitVec.ofNat 9 (cc + 1 + 1 + (k : Int)).toNat) v) := by
  rw [List.mapIdx_cons]
  congr 2
  · simp
  · funext k w
    rw [Nat.cast_succ, add_assoc (cc + 1), add_comm (1 : Int)]

/-- Settles O53, by induction on the values: after the first slot the machine stands before the others as it stood before
the first, and they do not write the first's address again. -/
theorem consecutiveSlotsFillTheSink : Obligations.ConsecutiveSlotsFillTheSink := by
  intro s vs hw hbusy hst hsbc hpc hprev hn hlow hcc
  induction vs generalizing s with
  | nil =>
    exact ⟨s, rfl, hst, (add_zero _).symm, rfl, (List.append_nil _).symm, nofun, fun _ _ => rfl⟩
  | cons v vs ih =>
    rw [List.length_cons, Nat.cast_succ] at hcc
    rw [List.flatMap_cons] at hn
    have hfirst := anAlignedSlotIsWritten s v hw hbusy hst hsbc hpc hprev (nextBytes_left hn) hlow (by omega)
    have hprev' : Memory.read s.chunk (s.pc + 11 - 1) = some 0x00#8 := (nextBytes_left hn).2 10 _ rfl
    obtain ⟨t, hrun, htst, htcc, htpc, htout, htslot, htframe⟩ :=
      ih { slotWritten { s with val := v } with sp := 4, pc := s.pc + 11 } hw hbusy hst hsbc
        (show 1 ≤ s.pc + 11 by omega) hprev'
        (nextBytes_drop hn rfl rfl rfl) (show -1 ≤ s.cc + 1 by omega) (show s.cc + 1 + vs.length ≤ 510 by omega)
    dsimp only [slotWritten] at htcc htpc htout htslot htframe
    have hnext : slotAddr s.sinkRef (s.cc + 1 + 1).toNat = slotAddr s.sinkRef (s.cc + 1).toNat + 1 := by
      simp only [slotAddr]
      omega
    rw [hnext] at htframe
    refine ⟨t, ?_, htst, ?_, ?_, ?_, ?_, fun a ha => ?_⟩
    · rw [List.length_cons, Nat.mul_succ, Nat.add_comm, steps_add_of_steps hfirst, hrun]
    · rw [htcc, List.length_cons, Nat.cast_succ]
      omega
    · rw [htpc, List.length_cons]
      omega
    · rw [htout, mapIdx_sinkSet_cons, List.append_assoc]
      rfl
    · rintro (- | k) w hk
      · obtain rfl : v = w := Option.some.inj hk
        rw [slot_eq_read, Nat.cast_zero, add_zero, htframe _ (.inl (Nat.lt_succ_self _)), Memory.read_write, if_pos rfl]
      · have hindex : s.cc + 1 + ((k + 1 : Nat) : Int) = s.cc + 1 + 1 + k := by omega
        rw [hindex]
        exact htslot k w hk
    · rw [List.length_cons] at ha
      rw [htframe a (by omega)]
      exact read_write_of_ne (by omega)

end Sys2Proof.Proofs

/-! The host operations and the end of a call (O26, O27, O28, O29), and the call with an empty chunk (O54). -/

namespace Sys2Proof.Proofs

open Sys2Proof.Machine Sys2Proof.Claims

/-! ### CONSTRUCT and PARSE.BEGIN (O26, O27, O29) -/

/-- CONSTRUCT between calls (R110, R230). -/
theorem execConstruct_of_idle {s : State} (sink : Nat) (cb : Bool) (hidle : s.busy = false) :
    execConstruct sink cb s = .next { s with
      sinkRef := sink, callbackPresent := cb, state := .waitForBreak, pc := 0, sbc := 0, sp := 0, val := 0#8,
      cc := -1, chunk := [], size := 0 } := by
  rw [execConstruct, if_neg (by simp [hidle])]

/-- CONSTRUCT during a call (D28; log 7). -/
theorem execConstruct_of_busy {s : State} (sink : Nat) (cb : Bool) (hbusy : s.busy = true) :
    execConstruct sink cb s = .refused .commandWhileBusy :=
  if_pos hbusy

/-- PARSE.BEGIN between calls, for a chunk that passes its checks (R111). -/
theorem execParseBegin_of_fit {s : State} {chunk : Memory} {size : Nat} (hidle : s.busy = false)
    (hheld : cursorHolds s.widths.cursor size = true) (hread : Memory.readableTo chunk size = true) :
    execParseBegin chunk size s =
      .next { s with busy := true, chunk := chunk, size := size, pc := 0, state := .waitForBreak, sbc := 0 } := by
  rw [execParseBegin, if_neg (by simp [hidle]), if_neg (by simp [hheld]), if_neg (by simp [hread])]

/-- PARSE.BEGIN during a call (R241; log 7). -/
theorem execParseBegin_of_busy {s : State} (chunk : Memory) (size : Nat) (hbusy : s.busy = true) :
    execParseBegin chunk size s = .refused .commandWhileBusy :=
  if_pos hbusy

/-- Settles O26: the fields of the state that CONSTRUCT answers between calls. -/
theorem constructBindsAndResets : Obligations.ConstructBindsAndResets := by
  intro s start cb sink hidle
  exact ⟨_, execConstruct_of_idle sink cb hidle, rfl, rfl, rfl, rfl, rfl, rfl, rfl, rfl, hidle, fun _ => rfl, rfl, rfl, rfl,
    rfl⟩

/-- Settles O27: a readable chunk that the cursor holds passes the checks of PARSE.BEGIN. -/
theorem parseBeginStartsACall : Obligations.ParseBeginStartsACall := by
  intro s chunk size hidle hread hheld
  exact execParseBegin_of_fit hidle hheld ((Memory.readableTo_iff chunk size).2 hread)

/-- Settles O29: `busy` is the first check of both commands. -/
theorem hostCommandsAreRefusedDuringACall : Obligations.HostCommandsAreRefusedDuringACall := by
  intro s start cb sink size chunk hbusy
  exact ⟨execConstruct_of_busy sink cb hbusy, execParseBegin_of_busy chunk size hbusy⟩

/-! ### PARSE.END (O28) -/

/-- When the chunk is used up a step is PARSE.END (R112, R114). -/
theorem step_of_callEnd {s : State} (hbusy : s.busy = true) (hused : s.size ≤ s.pc) : step s = execParseEnd s := by
  obtain ⟨-, hend, -⟩ := stepRunsTheSelectedOperation
  exact hend s hbusy hused

/-- Settles O28: the events are those of O44's proof, and nothing else is written but the bindings of the call. -/
theorem parseEndCompletesInTheDataRegion : Obligations.ParseEndCompletesInTheDataRegion := by
  intro s
  obtain ⟨t, hex⟩ : ∃ t, exec .parseEnd s = .next t := ⟨_, execParseEnd_eq s⟩
  obtain ⟨hout, hinv⟩ := execParseEnd_events hex
  have hstep : s.busy = true → s.size ≤ s.pc → step s = .next t := fun hbusy hused =>
    (step_of_callEnd hbusy hused).trans hex
  obtain ⟨o, n, rfl⟩ := execParseEnd_eq_next hex
  exact ⟨_, hex, rfl, hout, hinv, rfl, rfl, rfl, rfl, rfl, rfl, rfl, rfl, fun _ => rfl, rfl, rfl, hstep⟩

/-! ### The empty call (O54) -/

/-- Between calls a `parse` request that comes first is performed (R99, R111; log 6). -/
theorem step_of_parseRequest {s : State} {q : HostRequest} {rest : List HostRequest} (hidle : s.busy = false)
    (hreq : s.requests = q :: rest) (hrst : q.rst = false) (hstart : q.start = true) :
    step s = exec (.parseBegin q.chunk q.size) { s with requests := rest } :=
  step_of_request hidle hreq (by simp [hstart]) (by simp [decodeHost, hrst, hstart])

/-- Outside the data region the end of a call does nothing else (R114). -/
theorem step_of_silentEnd {s : State} (hbusy : s.busy = true) (hused : s.size ≤ s.pc)
    (hst : inDataRegion s.state = false) : step s = .next { s with busy := false, chunk := [], size := 0 } := by
  rw [step_of_callEnd hbusy hused, execParseEnd_eq, if_neg (by simp [hst])]

/-- Settles O54: PARSE.BEGIN passes its checks, since an empty chunk is readable, and PARSE.END follows at once, in
WAIT_FOR_BREAK. -/
theorem anEmptyCallIsSilent : Obligations.AnEmptyCallIsSilent := by
  intro s q rest hidle hreq hrst hstart hsize hheld
  have hread : Readable q.chunk q.size := fun a ha => absurd (hsize ▸ ha) (Nat.not_lt_zero a)
  have hbegin := (step_of_parseRequest hidle hreq hrst hstart).trans
    (parseBeginStartsACall { s with requests := rest } q.chunk q.size hidle hread (by rw [hsize]; exact hheld))
  rw [steps_succ_of_step hbegin]
  refine (steps_succ_of_step (step_of_silentEnd rfl hsize.le rfl)).trans ?_
  rw [steps, ← hidle]

end Sys2Proof.Proofs

/-! The transitions of a byte (O46), and progress: no step stops (O35) and every call uses up its chunk (O55). -/

namespace Sys2Proof.Proofs

open Sys2Proof.Machine Sys2Proof.Claims

/-! ### The transitions (O46) -/

/-- The start-bit test ends in WAIT_FOR_BREAK or IN_DATA_BITS (R171, R172). -/
theorem checkStartBit_state (bit : Byte) (p : Nat) (s : State) :
    (checkStartBit bit p s).state = .waitForBreak ∨ (checkStartBit bit p s).state = .inDataBits := by
  obtain ⟨-, h⟩ | ⟨-, h⟩ := checkStartBit_cases bit p s <;> rw [h]
  · exact .inl rfl
  · exact .inr rfl

/-- A slot boundary ends in WAIT_FOR_BREAK, IN_BREAK or IN_DATA_STARTBIT (R183 to R185). -/
theorem boundary_state (z : Nat) (s : State) :
    (boundary z s).state = .waitForBreak ∨ (boundary z s).state = .inBreak ∨ (boundary z s).state = .inDataStartbit := by
  unfold boundary
  split
  · exact .inl rfl
  · split
    · exact .inr (.inl rfl)
    · exact .inr (.inr rfl)

/-- From IN_DATA_STARTBIT the start-bit test makes a transition of R121. -/
theorem startbit_transition (bit : Byte) (p : Nat) (s : State) :
    (LineState.inDataStartbit, (checkStartBit bit p s).state) ∈ transitions := by
  obtain h | h := checkStartBit_state bit p s <;> rw [h] <;> decide

/-- From IN_DATA_STOPBITS a slot boundary makes a transition of R121. -/
theorem boundary_transition (z : Nat) (s : State) : (LineState.inDataStopbits, (boundary z s).state) ∈ transitions := by
  obtain h | h | h := boundary_state z s <;> rw [h] <;> decide

/-- Every operation that a byte selects makes a transition of R121. -/
theorem transition_of_selects {s t : State} {st : LineState} {b : Byte} {i : Instr} (hst : s.state = st)
    (hsel : Selects s.sbc st b i) (hex : exec i s = .next t) : (st, t.state) ∈ transitions := by
  have hkept : ∀ u : State, u.state = s.state → (st, st) ∈ transitions → (st, u.state) ∈ transitions := by
    intro u hu hmem
    rwa [hu, hst]
  cases hsel with
  | wfbScan | wfmHold | mabOnes | scZero | scsOnes | dbBit | dspOnes =>
    cases hex
    exact hkept _ rfl (by decide)
  | wfbFall | wfmRise =>
    cases hex
    rw [advance_state, enterWith_state]
    decide
  | brkAbort | wfmAbort | mabNoise | scNoise | scsNoise | dspNoise =>
    cases hex
    rw [advance_state, lockLoss_state]
    decide
  | brkZero =>
    obtain ⟨-, rfl⟩ | ⟨-, rfl⟩ := execBrkZero_eq_next hex
    · exact hkept _ rfl (by decide)
    · rw [advance_state, changeState_state]
      decide
  | mabFall | scRise | scsFall =>
    cases hex
    simp only [advance_state, apply_ite State.state, lockLoss_state, enterWith_state]
    split <;> decide
  | dsbPrev =>
    obtain ⟨prev, -, -, -, hk⟩ := readCap_eq_next hex
    cases hk
    exact startbit_transition ..
  | dsbCur =>
    cases hex
    exact startbit_transition ..
  | dbLast =>
    cases (execDbLast_eq b s).symm.trans hex
    rw [advance_state, enterWith_state]
    decide
  | dspEarly =>
    obtain ⟨-, -, rfl⟩ := execDspEarly_eq_next hex
    exact (by decide : (LineState.inDataStopbits, LineState.inBreak) ∈ transitions)
  | dspFall | dspAlt =>
    cases slotBoundary_eq_boundary hex
    exact boundary_transition ..

/-- Settles O46: a step on a byte that goes on performs an operation that the byte selects. -/
theorem onlyTheTransitionsOfTheTable : Obligations.OnlyTheTransitionsOfTheTable := by
  intro s t st b hx h
  obtain ⟨i, hsel, hex⟩ := selects_of_step hx h
  obtain ⟨-, -, hst, -⟩ := hx
  exact transition_of_selects hst hsel hex

/-! ### No step stops (O35) -/

/-- Every byte selects an operation, but in IN_DATA_BITS with a count above 7 (R33, R88). -/
theorem decodeByte_eq_some {sbc : Nat} {st : LineState} (val b : Byte) (hcount : st = .inDataBits → sbc ≤ 7) :
    ∃ i, decodeByte sbc val st b = some i := by
  cases st with
  | inDataBits =>
    obtain hmore | rfl := (hcount rfl).lt_or_eq
    · exact ⟨_, if_pos hmore⟩
    · exact ⟨_, rfl⟩
  | _ => exact ⟨_, rfl⟩

/-- Early termination goes on with `cc` in its range (R182, R188). -/
theorem execDspEarly_of_range {s : State} (hlow : -1 ≤ s.cc) (hhigh : s.cc ≤ 510) :
    ∃ t, execDspEarly s = .next t := by
  have hlen : lastSlot - s.cc = 511 - s.cc := by rw [lastSlot_eq]
  rw [execDspEarly, sinkFill_of_slots _ _ (by omega) (by omega) (by omega) (by omega), andThen_next]
  exact ⟨_, rfl⟩

/-- Under the invariant a step on a byte goes on: the count of the data bits, the look-back and the slots are in range. -/
theorem step_goes_on_of_byte {s : State} {st : LineState} {b : Byte} (hi : s.Inv) (hx : Examines s st b) :
    ∃ t, step s = .next t := by
  have ⟨hbusy, _, hst, _⟩ := hx
  have hcount : st = .inDataBits → s.sbc ≤ 7 := by
    rintro rfl
    have h := hi.count
    rw [CountInRange, hst] at h
    exact h.1
  have hslots : st = .inDataStopbits → -1 ≤ s.cc ∧ s.cc ≤ 510 := by
    rintro rfl
    have h := hi.channel
    rwa [ChannelInRange, hst] at h
  obtain ⟨i, hdec⟩ := decodeByte_eq_some s.val b hcount
  have hstep := step_of_decodeByte_some hx hdec
  cases selects_of_decodeByte hdec with
  | dsbPrev late =>
    obtain ⟨hpc, -, prev, hprev, -⟩ := hi.edge hbusy hst
    exact ⟨_, step_of_dsbPrev hx late hpc hprev⟩
  | dspEarly =>
    obtain ⟨hlow, hhigh⟩ := hslots rfl
    obtain ⟨t, ht⟩ := execDspEarly_of_range hlow hhigh
    exact ⟨t, hstep.trans ht⟩
  | dspFall | dspAlt =>
    obtain ⟨hlow, hhigh⟩ := hslots rfl
    exact ⟨_, hstep.trans (slotBoundary_of_range _ hlow hhigh)⟩
  | dbLast => exact ⟨_, hstep.trans (execDbLast_eq b s)⟩
  | _ => exact ⟨_, hstep⟩

/-- While the chunk is not used up the machine examines a byte of it (R112, R236 row 6). -/
theorem examines_of_inv {s : State} (hi : s.Inv) (hbusy : s.busy = true) (hpc : s.pc < s.size) :
    ∃ b, Examines s s.state b := by
  obtain ⟨b, hread⟩ := Option.isSome_iff_exists.1 (hi.readable s.pc hpc)
  exact ⟨b, hbusy, hpc, rfl, hread⟩

/-- Settles O35: during a call a byte or PARSE.END, between calls the oldest request, whose chunk the host keeps fit, or
nothing. -/
theorem noStepStopsUnderTheInvariant : Obligations.NoStepStopsUnderTheInvariant := by
  intro s hi
  obtain ⟨-, -, hrstStep, -, hnone, hidleStep⟩ := stepRunsTheSelectedOperation
  by_cases hbusy : s.busy = true
  · by_cases hpc : s.pc < s.size
    · obtain ⟨b, hx⟩ := examines_of_inv hi hbusy hpc
      exact step_goes_on_of_byte hi hx
    · exact ⟨_, (step_of_callEnd hbusy (not_lt.1 hpc)).trans (execParseEnd_eq s)⟩
  · have hidle : s.busy = false := Bool.eq_false_iff.2 hbusy
    cases hreq : s.requests with
    | nil => exact ⟨s, hidleStep s hidle hreq⟩
    | cons q rest =>
      obtain ⟨⟨-, hread⟩, hheld⟩ := hi.requests q (hreq ▸ List.mem_cons_self)
      cases hrst : q.rst with
      | true => exact ⟨_, (hrstStep s q rest hidle hreq hrst).trans (execConstruct_of_idle _ _ hidle)⟩
      | false =>
        cases hstart : q.start with
        | true =>
          exact ⟨_, (step_of_parseRequest hidle hreq hrst hstart).trans
            (parseBeginStartsACall { s with requests := rest } q.chunk q.size hidle hread hheld)⟩
        | false => exact ⟨_, hnone s q rest hidle hreq hrst hstart⟩

/-! ### Every call uses up its chunk (O55) -/

/-- A bound on the steps until the chunk is used up. Two for each byte left; one less outside IN_DATA_STARTBIT, where the
next step consumes a byte, since only the look-back does not (R97). -/
def stepsLeft (s : State) : Nat :=
  if s.state = .inDataStartbit then 2 * (s.size - s.pc) else 2 * (s.size - s.pc) - 1

/-- The bound is at most two steps for each byte left. -/
theorem stepsLeft_le (s : State) : stepsLeft s ≤ 2 * (s.size - s.pc) := by
  unfold stepsLeft
  split <;> omega

/-- Every operation that a byte selects, but the look-back, advances the cursor (R97). -/
theorem pcAdvance_pos {i : Instr} (s : State) (h : ∀ b, i ≠ .dsbPrev b) : 1 ≤ pcAdvance i s := by
  cases i with
  | dsbPrev b => exact absurd rfl (h b)
  | dbLast =>
    simp only [pcAdvance]
    split <;> decide
  | _ => exact le_rfl

/-- A step on a byte brings the end of the chunk nearer: it advances the cursor, or it is the look-back and leaves
IN_DATA_STARTBIT. -/
theorem stepsLeft_lt_of_byte {s t : State} {b : Byte} {i : Instr} (hx : Examines s s.state b)
    (hsel : Selects s.sbc s.state b i) (hex : exec i s = .next t) : stepsLeft t < stepsLeft s := by
  obtain ⟨-, hpc, -, -⟩ := hx
  have hadv := pcAdvancesByTheTable i s t hsel.isStepOp hex
  obtain ⟨-, hsize, -⟩ := stepOperationsKeepTheBindings i s t hsel.isStepOp hex
  by_cases hback : ∃ c, i = .dsbPrev c
  · obtain ⟨c, rfl⟩ := hback
    have hstart : s.state = .inDataStartbit := by
      generalize s.state = st at hsel
      cases hsel
      rfl
    have hleft : t.state ≠ .inDataStartbit := by
      obtain ⟨prev, -, -, -, hk⟩ := readCap_eq_next hex
      cases hk
      obtain h | h := checkStartBit_state (sample prev (samplePosPrev s.sbc)) (samplePosPrev s.sbc) s <;> rw [h] <;> nofun
    rw [stepsLeft, stepsLeft, if_pos hstart, if_neg hleft, hadv, hsize, pcAdvance]
    omega
  · have hpos := pcAdvance_pos s (not_exists.1 hback)
    have ht := stepsLeft_le t
    unfold stepsLeft at ht ⊢
    split <;> split <;> omega

/-- Under the invariant the chunk is used up within `stepsLeft` steps: while bytes are left the next step goes on and lowers
the bound. -/
theorem call_uses_up_chunk {s : State} (hi : s.Inv) (hbusy : s.busy = true) :
    ∃ k t, k ≤ stepsLeft s ∧ steps k s = .next t ∧ t.busy = true ∧ t.chunk = s.chunk ∧ t.size = s.size ∧
      t.size ≤ t.pc ∧ t.pc ≤ t.size + 1 := by
  induction hn : stepsLeft s using Nat.strong_induction_on generalizing s with
  | _ n ih =>
    by_cases hpc : s.pc < s.size
    · obtain ⟨b, hx⟩ := examines_of_inv hi hbusy hpc
      obtain ⟨u, hu⟩ := step_goes_on_of_byte hi hx
      obtain ⟨i, hsel, hex⟩ := selects_of_step hx hu
      have hlt : stepsLeft u < n := hn ▸ stepsLeft_lt_of_byte hx hsel hex
      obtain ⟨huchunk, husize, hubusy, -⟩ := stepOperationsKeepTheBindings i s u hsel.isStepOp hex
      obtain ⟨k, t, hk, hrun, htbusy, htchunk, htsize, hused⟩ :=
        ih _ hlt (everyStepKeepsTheInvariant s u hi hu) (hubusy.trans hbusy) rfl
      exact ⟨k + 1, t, by omega, (steps_succ_of_step hu).trans hrun, htbusy, htchunk.trans huchunk,
        htsize.trans husize, hused⟩
    · have hcursor := hi.cursor hbusy
      exact ⟨0, s, Nat.zero_le n, rfl, hbusy, rfl, rfl, by omega, by omega⟩

/-- Settles O55: `stepsLeft` is at most two steps for each byte left. -/
theorem everyCallEndsInTime : Obligations.EveryCallEndsInTime := by
  intro s hi hbusy
  obtain ⟨k, t, hk, hrest⟩ := call_uses_up_chunk hi hbusy
  exact ⟨k, t, hk.trans (stepsLeft_le s), hrest⟩

end Sys2Proof.Proofs

/-! Noninterference (O56): what a decoder puts out depends only on the call in progress, on the requests and on the registers
that are still to be read in its state. -/

namespace Sys2Proof.Proofs

open Sys2Proof.Machine Sys2Proof.Claims

/-! ### Two decoders that agree in what is still to be read -/

/-- `u` agrees with `s` in the call, the requests, the widths and every register that can be read before it is written
again: `sbc` outside WAIT_FOR_BREAK, `cc` behind the break, which clears it (R115), and `sp` and `val` behind the start bit,
which sets them (R171, R172). -/
structure SameLive (s u : State) : Prop where
  state : u.state = s.state
  pc : u.pc = s.pc
  busy : u.busy = s.busy
  chunk : u.chunk = s.chunk
  size : u.size = s.size
  requests : u.requests = s.requests
  widths : u.widths = s.widths
  sbc : s.state ≠ .waitForBreak → u.sbc = s.sbc
  cc : s.state ≠ .waitForBreak → s.state ≠ .inBreak → u.cc = s.cc
  sampled : s.state = .inDataBits ∨ s.state = .inDataStopbits → u.sp = s.sp ∧ u.val = s.val

namespace SameLive

variable {s u : State}

/-- Both sides of a test that the two decoders share. -/
theorem ite {c : Prop} [Decidable c] {s' u' : State} (hpos : SameLive s u) (hneg : SameLive s' u') :
    SameLive (if c then s else s') (if c then u else u') := by
  split
  · exact hpos
  · exact hneg

section
variable (h : SameLive s u)
include h

theorem advance (n : Nat) : SameLive (advance n s) (advance n u) :=
  { h with pc := congrArg (· + n) h.pc }

/-- A loss of lock leaves no register to be read. -/
theorem lockLoss (c : LockLossCause) : SameLive (lockLoss c s) (lockLoss c u) :=
  { h with
    state := rfl
    sbc := fun hne => absurd rfl hne
    cc := fun hne => absurd rfl hne
    sampled := nofun }

/-- Entering a state writes `sbc`; `cc` and the sampled registers must agree where the new state reads them. -/
theorem enterWith (st : LineState) (v : Nat) (hcc : st ≠ .inBreak → st ≠ .waitForMab → u.cc = s.cc)
    (hsampled : st = .inDataBits ∨ st = .inDataStopbits → u.sp = s.sp ∧ u.val = s.val) :
    SameLive (enterWith st v s) (enterWith st v u) :=
  { h with
    state := rfl
    sbc := fun _ => rfl
    cc := fun _ hbrk => by
      by_cases hmab : st = .waitForMab
      · rw [enterWith_cc, enterWith_cc, if_pos hmab, if_pos hmab]
      · rw [enterWith_cc, enterWith_cc, if_neg hmab, if_neg hmab, hcc hbrk hmab]
    sampled := hsampled }

theorem accumulate (hne : s.state ≠ .waitForBreak) : SameLive (accumulate s) (accumulate u) :=
  { h with sbc := fun _ => by rw [accumulate_sbc, accumulate_sbc, h.widths, h.sbc hne] }

theorem complete : SameLive (complete s) (complete u) :=
  { h with }

/-- The start-bit test writes the registers that the data bits read. -/
theorem checkStartBit (bit : Byte) (p : Nat) (hcc : u.cc = s.cc) :
    SameLive (checkStartBit bit p s) (checkStartBit bit p u) :=
  .ite
    { h with
      state := rfl
      sbc := fun hne => absurd rfl hne
      cc := fun hne => absurd rfl hne
      sampled := nofun }
    { h with
      state := rfl
      sbc := fun _ => rfl
      cc := fun _ _ => hcc
      sampled := fun _ => ⟨rfl, rfl⟩ }

/-- A slot boundary takes the same of its three ways. -/
theorem boundary (z : Nat) (hsbc : u.sbc = s.sbc) (hcc : u.cc = s.cc) : SameLive (boundary z s) (boundary z u) := by
  have hpc : u.pc + 1 = s.pc + 1 := congrArg (· + 1) h.pc
  have hcounted : u.cc + 1 = s.cc + 1 := congrArg (· + 1) hcc
  unfold Claims.boundary
  rw [hsbc, hcounted]
  exact .ite
    { h with
      state := rfl
      pc := hpc
      sbc := fun hne => absurd rfl hne
      cc := fun hne => absurd rfl hne
      sampled := nofun }
    (.ite
      { h with
        state := rfl
        pc := hpc
        sbc := fun _ => rfl
        cc := fun _ hne => absurd rfl hne
        sampled := nofun }
      { h with
        state := rfl
        pc := hpc
        sbc := fun _ => rfl
        cc := fun _ _ => hcounted
        sampled := nofun })

theorem taken : SameLive (taken s) (taken u) := by
  cases hbusy : s.busy with
  | true => rwa [taken_of_busy s hbusy, taken_of_busy u (h.busy.trans hbusy)]
  | false =>
    rw [taken_of_idle s hbusy, taken_of_idle u (h.busy.trans hbusy)]
    exact { h with requests := congrArg List.tail h.requests }

end

end SameLive

/-! ### The operations -/

/-- In IN_DATA_STOPBITS every register that a boundary reads agrees. -/
theorem SameLive.stopbits {s u : State} (h : SameLive s u) (hst : s.state = .inDataStopbits) :
    u.sbc = s.sbc ∧ u.cc = s.cc ∧ u.val = s.val :=
  ⟨h.sbc (by simp [hst]), h.cc (by simp [hst]) (by simp [hst]), (h.sampled (.inr hst)).2⟩

/-- A slot boundary that goes on in one of two states goes on in the other if their counts agree. -/
theorem slotBoundary_goes_on {z : Nat} {s t u : State} (hsbc : u.sbc = s.sbc) (hcc : u.cc = s.cc)
    (h : slotBoundary z s = .next t) : slotBoundary z u = .next (boundary z u) := by
  obtain ⟨hshort, -⟩ | ⟨-, v, hv, -⟩ := slotBoundary_eq_next h
  · have hu : slotBoundary z u = .next (advance 1 (lockLoss .dspShort (complete u))) := by
      rw [slotBoundary, hsbc, if_pos ((stopTooShort_iff _).2 hshort)]
    rw [hu, slotBoundary_eq_boundary hu]
  · obtain ⟨hlow, hhigh, -⟩ := acceptChannel_eq_next hv
    exact slotBoundary_of_range z (by omega) (by omega)

/-- Every operation that a byte selects goes on in the other decoder as well and keeps the agreement. -/
theorem exec_sameLive_of_selects {s u t : State} {st : LineState} {b : Byte} {i : Instr} (h : SameLive s u)
    (hst : s.state = st) (hsel : Selects s.sbc st b i) (hex : exec i s = .next t) :
    ∃ t', exec i u = .next t' ∧ SameLive t t' := by
  have hsbc : st ≠ .waitForBreak → u.sbc = s.sbc := fun hne => h.sbc (hst ▸ hne)
  have hcc : st ≠ .waitForBreak → st ≠ .inBreak → u.cc = s.cc := fun hne hne' => h.cc (hst ▸ hne) (hst ▸ hne')
  cases hsel with
  | wfbFall =>
    cases hex
    exact ⟨_, rfl, (h.enterWith .inBreak _ (fun hne => absurd rfl hne) nofun).advance 1⟩
  | wfbScan | wfmHold =>
    cases hex
    exact ⟨_, rfl, h.advance 1⟩
  | brkAbort | wfmAbort | mabNoise | scNoise | scsNoise =>
    cases hex
    exact ⟨_, rfl, (h.lockLoss _).advance 1⟩
  | mabOnes | scZero | scsOnes | dspOnes =>
    cases hex
    exact ⟨_, rfl, (h.accumulate (by simp [hst])).advance 1⟩
  | brkZero =>
    cases hex
    have hacc := h.accumulate (by simp [hst])
    refine ⟨_, rfl, SameLive.advance ?_ 1⟩
    rw [hacc.sbc (by simp [hst])]
    exact .ite (hacc.enterWith .waitForMab 0 (fun _ hne => absurd rfl hne) nofun) hacc
  | wfmRise =>
    cases hex
    exact ⟨_, rfl, (h.enterWith .inMab _ (fun _ _ => hcc nofun nofun) nofun).advance 1⟩
  | mabFall =>
    cases hex
    refine ⟨_, rfl, SameLive.advance ?_ 1⟩
    rw [hsbc nofun]
    exact .ite (h.lockLoss _) (h.enterWith .inStartcode _ (fun _ _ => hcc nofun nofun) nofun)
  | scRise =>
    cases hex
    refine ⟨_, rfl, SameLive.advance ?_ 1⟩
    rw [hsbc nofun]
    exact .ite (h.enterWith .inStartcodeStopbits _ (fun _ _ => hcc nofun nofun) nofun) (h.lockLoss _)
  | scsFall =>
    cases hex
    refine ⟨_, rfl, SameLive.advance ?_ 1⟩
    rw [hsbc nofun]
    exact .ite (h.lockLoss _) (h.enterWith .inDataStartbit _ (fun _ _ => hcc nofun nofun) nofun)
  | dsbPrev =>
    obtain ⟨prev, hlow, hhigh, hread, hk⟩ := readCap_eq_next hex
    cases hk
    rw [← h.pc] at hlow hhigh hread
    rw [← h.size] at hhigh
    rw [← h.chunk] at hread
    refine ⟨_, readCap_of_some _ hlow hhigh hread, ?_⟩
    rw [hsbc nofun]
    exact h.checkStartBit _ _ (hcc nofun nofun)
  | dsbCur =>
    cases hex
    refine ⟨_, rfl, ?_⟩
    rw [hsbc nofun]
    exact (h.advance 1).checkStartBit _ _ (hcc nofun nofun)
  | dbBit =>
    cases hex
    obtain ⟨hsp, hval⟩ := h.sampled (.inl hst)
    refine ⟨_, rfl, SameLive.advance ?_ 1⟩
    rw [hsp, hval, hsbc nofun]
    exact { h with sbc := fun _ => rfl, sampled := fun _ => ⟨rfl, rfl⟩ }
  | dbLast =>
    cases (execDbLast_eq b s).symm.trans hex
    obtain ⟨hsp, hval⟩ := h.sampled (.inl hst)
    refine ⟨_, execDbLast_eq b u, ?_⟩
    rw [hsp, hval]
    have hread : SameLive { s with val := orDataBit s.val b s.sp 7 }
        { u with sp := s.sp, val := orDataBit s.val b s.sp 7 } :=
      { h with sampled := fun _ => ⟨rfl, rfl⟩ }
    exact (hread.enterWith .inDataStopbits _ (fun _ _ => hcc nofun nofun) fun _ => ⟨rfl, rfl⟩).advance _
  | dspEarly =>
    have hslots := hcc nofun nofun
    obtain ⟨hlow, hhigh, rfl⟩ := execDspEarly_eq_next hex
    obtain ⟨t', hex'⟩ := execDspEarly_of_range (s := u) (by omega) (by omega)
    obtain ⟨-, -, ht'⟩ := execDspEarly_eq_next hex'
    refine ⟨t', hex', ?_⟩
    rw [ht']
    exact
      { h with
        state := rfl
        pc := congrArg (· + 1) h.pc
        sbc := fun _ => rfl
        cc := fun _ _ => rfl
        sampled := nofun }
  | dspFall | dspAlt =>
    cases slotBoundary_eq_boundary hex
    exact ⟨_, slotBoundary_goes_on (hsbc nofun) (hcc nofun nofun) hex, h.boundary _ (hsbc nofun) (hcc nofun nofun)⟩
  | dspNoise =>
    cases hex
    exact ⟨_, rfl, (h.complete.lockLoss _).advance 1⟩

/-- Every dispatched operation goes on in the other decoder as well and keeps the agreement. -/
theorem exec_sameLive_of_dispatched {s u t : State} {i : Instr} (h : SameLive s u) (hd : Dispatched s i)
    (hex : exec i (taken s) = .next t) : ∃ t', exec i (taken u) = .next t' ∧ SameLive t t' := by
  have htaken := h.taken
  cases hd with
  | byte examines selects =>
    rw [taken_of_busy s examines.1] at htaken hex
    exact exec_sameLive_of_selects htaken rfl selects hex
  | callEnd =>
    obtain ⟨t', hex'⟩ : ∃ t', exec .parseEnd (taken u) = .next t' := ⟨_, execParseEnd_eq _⟩
    refine ⟨t', hex', ?_⟩
    obtain ⟨o, n, rfl⟩ := execParseEnd_eq_next hex
    obtain ⟨o', n', rfl⟩ := execParseEnd_eq_next hex'
    exact { htaken with busy := rfl, chunk := rfl, size := rfl }
  | construct =>
    obtain ⟨hidle, rfl⟩ := execConstruct_eq_next hex
    exact ⟨_, execConstruct_of_idle _ _ (htaken.busy.trans hidle),
      { htaken with
        state := rfl, pc := rfl, chunk := rfl, size := rfl
        sbc := fun _ => rfl, cc := fun _ _ => rfl, sampled := fun _ => ⟨rfl, rfl⟩ }⟩
  | parseBegin =>
    obtain ⟨hidle, hheld, hread, rfl⟩ := execParseBegin_eq_next hex
    exact ⟨_, execParseBegin_of_fit (htaken.busy.trans hidle) (htaken.widths ▸ hheld) hread,
      { htaken with
        state := rfl, pc := rfl, busy := rfl, chunk := rfl, size := rfl
        sbc := fun _ => rfl, cc := fun hne => absurd rfl hne, sampled := nofun }⟩

/-! ### The events, the dispatch and the steps -/

/-- An operation that a byte selects issues the same events in both decoders. -/
theorem eventsOf_sameLive_of_selects {s u : State} {st : LineState} {b : Byte} {i : Instr} (h : SameLive s u)
    (hst : s.state = st) (hsel : Selects s.sbc st b i) : eventsOf i u = eventsOf i s := by
  cases hsel with
  | dspEarly =>
    obtain ⟨-, hcc, -⟩ := h.stopbits hst
    rw [eventsOf, eventsOf, hcc]
  | dspFall | dspAlt =>
    obtain ⟨hsbc, hcc, hval⟩ := h.stopbits hst
    rw [eventsOf, eventsOf, boundaryEvents, boundaryEvents, hsbc, hcc, hval]
  | _ => rfl

/-- Every dispatched operation issues the same events in both decoders. -/
theorem eventsOf_sameLive_of_dispatched {s u : State} {i : Instr} (h : SameLive s u) (hd : Dispatched s i) :
    eventsOf i (taken u) = eventsOf i (taken s) := by
  have htaken := h.taken
  cases hd with
  | byte examines selects =>
    rw [taken_of_busy s examines.1] at htaken ⊢
    exact eventsOf_sameLive_of_selects htaken rfl selects
  | callEnd => rw [eventsOf, eventsOf, htaken.state]
  | construct | parseBegin => rfl

/-- Both decoders fetch the same. -/
theorem fetch_sameLive {s u : State} (h : SameLive s u) : fetch u = fetch s := by
  unfold fetch
  rw [h.busy, h.pc, h.size, h.chunk, h.state, h.requests]

/-- A byte selects the same operation in both decoders: `sbc` and `val` agree where a row tests them (R88). -/
theorem decodeByte_sameLive {s u : State} (h : SameLive s u) (b : Byte) :
    decodeByte u.sbc u.val s.state b = decodeByte s.sbc s.val s.state b := by
  by_cases hstop : s.state = .inDataStopbits
  · obtain ⟨hsbc, -, hval⟩ := h.stopbits hstop
    rw [hsbc, hval]
  · by_cases hscan : s.state = .waitForBreak
    · rw [hscan]
      rfl
    · rw [h.sbc hscan]
      generalize s.state = st at hstop
      cases st with
      | inDataStopbits => exact absurd rfl hstop
      | _ => rfl

/-- A step word that is fetched is that of the state and a byte (R88, R113). -/
theorem eq_stepWord_of_fetch {s : State} {w : BitVec 12} (h : fetch s = .word (.step w)) :
    ∃ b, w = stepWord s.state b := by
  unfold fetch at h
  split at h
  · split at h
    · split at h
      · cases h
        exact ⟨_, rfl⟩
      · cases h
    · cases h
  · split at h
    · cases h
    · split at h <;> cases h

/-- What is fetched selects the same operation in both decoders. -/
theorem decode_sameLive {s u : State} {f : FetchWord} (h : SameLive s u) (hf : fetch s = .word f) :
    decode u.sbc u.val f = decode s.sbc s.val f := by
  cases f with
  | step w =>
    obtain ⟨b, rfl⟩ := eq_stepWord_of_fetch hf
    rw [decode, decode, decodeStep_stepWord, decodeStep_stepWord, decodeByte_sameLive h]
  | host q => rfl
  | loop => rfl

/-- A step of one decoder is a step of the other, with the same events, and keeps the agreement. -/
theorem step_sameLive {s u t : State} (h : SameLive s u) (hstep : step s = .next t) :
    ∃ t' es, step u = .next t' ∧ SameLive t t' ∧ t.outputs = s.outputs ++ es ∧ t'.outputs = u.outputs ++ es := by
  obtain ⟨hf, rfl⟩ | ⟨f, i, hf, hdec, hex⟩ := step_eq_next hstep
  · exact ⟨taken u, [], by simp only [step, fetch_sameLive h, hf], h.taken, by simp, by simp⟩
  · have hd := dispatched_of_fetch hf hdec
    obtain ⟨t', hex', ht⟩ := exec_sameLive_of_dispatched h hd hex
    obtain ⟨hout, -⟩ := eventsAreThoseOfTheOperation i _ _ hex
    obtain ⟨hout', -⟩ := eventsAreThoseOfTheOperation i _ _ hex'
    rw [taken_outputs] at hout hout'
    rw [eventsOf_sameLive_of_dispatched h hd] at hout'
    refine ⟨t', eventsOf i (taken s), ?_, ht, hout, hout'⟩
    simp only [step, fetch_sameLive h, hf, decode_sameLive h hf, hdec, hex']

/-- A run of one decoder is a run of the other, with the same events, and keeps the agreement. -/
theorem steps_sameLive {k : Nat} {s u t : State} (h : SameLive s u) (hrun : steps k s = .next t) :
    ∃ t' es, steps k u = .next t' ∧ SameLive t t' ∧ t.outputs = s.outputs ++ es ∧ t'.outputs = u.outputs ++ es := by
  induction k generalizing s u with
  | zero =>
    cases hrun
    exact ⟨u, [], rfl, h, (List.append_nil _).symm, (List.append_nil _).symm⟩
  | succ k ih =>
    obtain ⟨s₁, hs₁, hrest⟩ := andThen_eq_next.1 hrun
    obtain ⟨u₁, es₁, hu₁, h₁, hsout, huout⟩ := step_sameLive h hs₁
    obtain ⟨t', es, hrun', ht, htout, htout'⟩ := ih h₁ hrest
    refine ⟨t', es₁ ++ es, (steps_succ_of_step hu₁).trans hrun', ht, ?_, ?_⟩
    · rw [htout, hsout, List.append_assoc]
    · rw [htout', huout, List.append_assoc]

/-- Settles O56: in WAIT_FOR_BREAK none of the registers that may differ is still to be read. -/
theorem outputsDoNotDependOnEarlierCalls : Obligations.OutputsDoNotDependOnEarlierCalls := by
  intro s u k t hs hu hpc hbusy hchunk hsize hrequests hwidths hrun
  have h : SameLive s u :=
    { state := hu.trans hs.symm, pc := hpc, busy := hbusy, chunk := hchunk, size := hsize
      requests := hrequests, widths := hwidths
      sbc := fun hne => absurd hs hne
      cc := fun hne => absurd hs hne
      sampled := fun hsampling => by simp [hs] at hsampling }
  obtain ⟨t', es, hrun', ht, hout, hout'⟩ := steps_sameLive h hrun
  exact ⟨t', es, hrun', ht.state, ht.pc, hout, hout'⟩

end Sys2Proof.Proofs

/-! The edge detectors and the bit sampler (O3, O4, O5): both detectors read off the bits of the byte, and the sampler as one
of them. -/

namespace Sys2Proof.Proofs

open Sys2Proof.Machine Sys2Proof.Claims

/-! ### The bits of the edge bytes -/

theorem getLsbD_ones {p : Nat} (hp : p < 8) : (0xFF#8).getLsbD p = true :=
  (BitVec.getLsbD_allOnes (v := 8)).trans (decide_eq_true hp)

/-- The low samples of a falling edge are its last `z` (R84). -/
theorem getLsbD_fallByte (z : Nat) {p : Nat} (hp : p < 8) : (fallByte z).getLsbD p = decide (z ≤ p) := by
  rw [fallByte, BitVec.getLsbD_shiftLeft, getLsbD_ones (by omega : p - z < 8)]
  simp [hp, ← decide_not]

/-- The high samples of a rising edge are its last `o` (R85). -/
theorem getLsbD_riseByte {o : Nat} (ho : o ≤ 8) (p : Nat) : (riseByte o).getLsbD p = decide (p < o) := by
  rw [riseByte, BitVec.getLsbD_ushiftRight]
  by_cases hp : p < o
  · rw [getLsbD_ones (by omega), decide_eq_true hp]
  · rw [BitVec.getLsbD_of_ge _ _ (by omega), decide_eq_false hp]

/-! ### The detectors by the bits of the byte -/

/-- The falling-edge detector finds `z` low samples behind high ones, and nothing else (R130). -/
theorem fallingEdge_eq_some_iff (b : Byte) (z : Nat) :
    fallingEdge b = some z ↔ 1 ≤ z ∧ z ≤ 8 ∧ ∀ p, p < 8 → b.getLsbD p = decide (z ≤ p) := by
  constructor
  · intro h
    obtain ⟨hlow, hhigh⟩ := fallingEdge_bounds h
    exact ⟨hlow, hhigh, fun p hp => by rw [eq_fallByte h, getLsbD_fallByte z hp]⟩
  · rintro ⟨hlow, hhigh, hbits⟩
    have hb : b = fallByte z :=
      BitVec.eq_of_getLsbD_eq fun p hp => (hbits p hp).trans (getLsbD_fallByte z hp).symm
    rw [hb, fallingEdge_fallByte ((edgeCount_iff z).2 ⟨hlow, hhigh⟩)]

/-- The rising-edge detector finds `o` high samples behind low ones, and nothing else (R131). -/
theorem risingEdge_eq_some_iff (b : Byte) (o : Nat) :
    risingEdge b = some o ↔ 1 ≤ o ∧ o ≤ 8 ∧ ∀ p, p < 8 → b.getLsbD p = decide (p < o) := by
  constructor
  · intro h
    obtain ⟨hlow, hhigh⟩ := risingEdge_bounds h
    exact ⟨hlow, hhigh, fun p _ => by rw [eq_riseByte h, getLsbD_riseByte hhigh]⟩
  · rintro ⟨hlow, hhigh, hbits⟩
    have hb : b = riseByte o :=
      BitVec.eq_of_getLsbD_eq fun p hp => (hbits p hp).trans (getLsbD_riseByte hhigh p).symm
    rw [hb, risingEdge_riseByte ((edgeCount_iff o).2 ⟨hlow, hhigh⟩)]

/-- Settles O3: the count fixes the byte, and the byte's bits are those of its edge byte. -/
theorem detectorsReturnTheCleanEdges : Obligations.DetectorsReturnTheCleanEdges :=
  ⟨fallingEdge_eq_some_iff, risingEdge_eq_some_iff⟩

/-! ### What the two detectors accept -/

/-- The last sample tells the two kinds of edge apart: it is low on a falling edge and high on a rising one. -/
theorem risingEdge_eq_none_of_fallingEdge {b : Byte} {z : Nat} (hz : fallingEdge b = some z) : risingEdge b = none := by
  refine Option.eq_none_iff_forall_ne_some.2 fun o ho => ?_
  obtain ⟨hzlow, -, hfall⟩ := (fallingEdge_eq_some_iff b z).1 hz
  obtain ⟨holow, -, hrise⟩ := (risingEdge_eq_some_iff b o).1 ho
  have hlast : decide (z ≤ 0) = decide (0 < o) := (hfall 0 (by decide)).symm.trans (hrise 0 (by decide))
  rw [decide_eq_decide] at hlast
  omega

/-- The one transition of a falling edge is in front of its low samples. -/
theorem fallingEdge_transition {b : Byte} {z p : Nat} (hz : fallingEdge b = some z) (hp : p < 7)
    (hne : b.getLsbD p ≠ b.getLsbD (p + 1)) : z = p + 1 := by
  obtain ⟨-, -, hbits⟩ := (fallingEdge_eq_some_iff b z).1 hz
  rw [hbits p (by omega), hbits (p + 1) (by omega), Ne, decide_eq_decide] at hne
  omega

/-- The one transition of a rising edge is in front of its high samples. -/
theorem risingEdge_transition {b : Byte} {o p : Nat} (ho : risingEdge b = some o) (hp : p < 7)
    (hne : b.getLsbD p ≠ b.getLsbD (p + 1)) : o = p + 1 := by
  obtain ⟨-, -, hbits⟩ := (risingEdge_eq_some_iff b o).1 ho
  rw [hbits p (by omega), hbits (p + 1) (by omega), Ne, decide_eq_decide] at hne
  omega

/-- A byte with two transitions is neither kind of edge: each would have to be the edge's one transition. -/
theorem edges_eq_none_of_two_transitions {b : Byte} {p q : Nat} (hpq : p < q) (hq : q < 7)
    (hp_ne : b.getLsbD p ≠ b.getLsbD (p + 1)) (hq_ne : b.getLsbD q ≠ b.getLsbD (q + 1)) :
    fallingEdge b = none ∧ risingEdge b = none := by
  constructor
  · refine Option.eq_none_iff_forall_ne_some.2 fun z hz => ?_
    have hzp := fallingEdge_transition hz (hpq.trans hq) hp_ne
    have hzq := fallingEdge_transition hz hq hq_ne
    omega
  · refine Option.eq_none_iff_forall_ne_some.2 fun o ho => ?_
    have hop := risingEdge_transition ho (hpq.trans hq) hp_ne
    have hoq := risingEdge_transition ho hq hq_ne
    omega

/-- The inverted byte has every sample inverted. -/
theorem getLsbD_xor_ones (b : Byte) {p : Nat} (hp : p < 8) : (b ^^^ 0xFF#8).getLsbD p = !b.getLsbD p := by
  rw [BitVec.getLsbD_xor, getLsbD_ones hp, Bool.xor_true]

/-- A falling edge is the inverted rising edge of the same count (R134 (d)). -/
theorem fallingEdge_eq_risingEdge_xor (b : Byte) : fallingEdge b = risingEdge (b ^^^ 0xFF#8) := by
  refine Option.ext fun n => ?_
  rw [fallingEdge_eq_some_iff, risingEdge_eq_some_iff]
  refine and_congr_right fun _ => and_congr_right fun _ => forall₂_congr fun p hp => ?_
  simp only [getLsbD_xor_ones b hp, Bool.not_eq_eq_eq_not, ← decide_not, Nat.not_lt]

/-- Settles O4: the last sample, the one transition, and the inverted samples. -/
theorem detectorsAreDisjointAndMirrored : Obligations.DetectorsAreDisjointAndMirrored := by
  refine ⟨fun b hfall => ?_, fun b p q => edges_eq_none_of_two_transitions, fallingEdge_eq_risingEdge_xor⟩
  obtain ⟨z, hz⟩ := Option.isSome_iff_exists.1 hfall
  exact risingEdge_eq_none_of_fallingEdge hz

/-! ### The bit sampler -/

/-- Settles O5: the sample's bit 0 is the byte's bit at the position, and its other bits are 0. -/
theorem samplerReadsOneBit : Obligations.SamplerReadsOneBit := by
  intro b p
  refine BitVec.eq_of_getLsbD_eq fun j _ => ?_
  rw [getLsbD_sample]
  cases b.getLsbD p with
  | false => simp
  | true => simp [BitVec.getLsbD_one]

end Sys2Proof.Proofs

/-! The framing of break and mark-after-break (O9 to O15), and the run over any line in WAIT_FOR_BREAK (O49). -/

namespace Sys2Proof.Proofs

open Sys2Proof.Machine Sys2Proof.Claims

/-! ### The operation that a class of bytes selects -/

section
variable {s : State} {st : LineState} {b : Byte} {i : Instr} {n : Nat}

/-- A step that examines the word of a well-formed operation, under the register condition of its row, performs it: O8 and
O31 put together (R88, R113). -/
theorem step_of_encode (hx : Examines s st b) (hwf : i.wellFormed = true) (hen : i.enabled s.sbc s.val = true)
    (hword : encode i = .step (stepWord st b)) : step s = exec i s := by
  have hdecode : decode s.sbc s.val (encode i) = some i := decodeOfEncodeIsTheOperation i s.sbc s.val hwf hen
  rw [hword] at hdecode
  exact stepRunsTheSelectedOperation.1 s st b i hx hdecode

/-- A falling-edge byte performs the operation that is encoded to it (R84, R89). -/
theorem step_of_fallingEdge (hx : Examines s st b) (hz : fallingEdge b = some n) (hwf : i.wellFormed = edgeCount n)
    (hen : i.enabled s.sbc s.val = true) (hword : encode i = .step (stepWord st (fallByte n))) : step s = exec i s :=
  step_of_encode hx (hwf.trans ((edgeCount_iff n).2 (fallingEdge_bounds hz))) hen (eq_fallByte hz ▸ hword)

/-- A rising-edge byte performs the operation that is encoded to it (R85, R89). -/
theorem step_of_risingEdge (hx : Examines s st b) (ho : risingEdge b = some n) (hwf : i.wellFormed = edgeCount n)
    (hen : i.enabled s.sbc s.val = true) (hword : encode i = .step (stepWord st (riseByte n))) : step s = exec i s :=
  step_of_encode hx (hwf.trans ((edgeCount_iff n).2 (risingEdge_bounds ho))) hen (eq_riseByte ho ▸ hword)

/-- In WAIT_FOR_BREAK a byte that is no falling edge only moves the cursor (R141). -/
theorem step_of_scan (hx : Examines s .waitForBreak b) (hnone : fallingEdge b = none) :
    step s = .next { s with pc := s.pc + 1 } :=
  step_of_encode (i := .wfbScan b) hx (Option.isNone_iff_eq_none.2 hnone) rfl rfl

end

/-! ### Scanning (O10, O49) -/

/-- Settles O10: both operations are the advance alone, and the bytes named select them. -/
theorem scanAndHoldOnlyAdvance : Obligations.ScanAndHoldOnlyAdvance :=
  fun _ => ⟨fun _ => rfl, rfl, fun _ => step_of_scan, step_of_hold⟩

/-- Settles O49, by induction on the bytes: each is scanned, and the others then lie ahead. -/
theorem scanningPassesOverAnyLine : Obligations.ScanningPassesOverAnyLine := by
  intro s bs hbusy hst hn hnone
  induction bs generalizing s with
  | nil => rfl
  | cons b bs ih =>
    obtain ⟨hb, hbs⟩ := List.forall_mem_cons.1 hnone
    have hpc : s.pc + 1 + bs.length = s.pc + (bs.length + 1) := by omega
    rw [List.length_cons, steps_succ_of_step (step_of_scan (examines_of_nextBytes hn hbusy hst) hb), ← hpc]
    exact ih { s with pc := s.pc + 1 } hbusy hst (nextBytes_tail hn rfl rfl rfl) hbs

/-! ### The edges that enter a state (O9, O13) -/

/-- Settles O9: the falling edge is the byte of WFB.FALL. -/
theorem wfbFallEntersTheBreak : Obligations.WfbFallEntersTheBreak :=
  fun _ z => ⟨rfl, fun _ hx hz => step_of_fallingEdge (i := .wfbFall z) hx hz rfl rfl rfl⟩

/-- Settles O13: the rising edge is the byte of WFM.RISE. -/
theorem wfmRiseEntersTheMab : Obligations.WfmRiseEntersTheMab :=
  fun _ o => ⟨rfl, fun _ hx ho => step_of_risingEdge (i := .wfmRise o) hx ho rfl rfl rfl⟩

/-! ### The bytes of one level (O11, O14) -/

/-- What `accumulate` counts, for an unbounded and for a finite register (R105; log 2). -/
theorem accumulate_eq_eightMore (s : State) : accumulate s = { s with sbc := eightMore s } := by
  have hcount : saturate s.widths.sbc (s.sbc + 8) = eightMore s := by
    unfold eightMore
    cases s.widths.sbc with
    | none => rfl
    | some w => exact saturate_some w _
  rw [accumulate, samplesPerByte_eq, hcount]

/-- Eight more samples whose byte is consumed, in the terms of the statements. -/
theorem next_advance_accumulate (s : State) :
    (.next (advance 1 (accumulate s)) : Result) = .next { s with sbc := eightMore s, pc := s.pc + 1 } := by
  rw [accumulate_eq_eightMore]
  rfl

/-- A count up to the threshold stays in IN_BREAK (R142). -/
theorem execBrkZero_of_le {s : State} (h : eightMore s ≤ 165) :
    execBrkZero s = .next (advance 1 (accumulate s)) := by
  have hnot : ¬breakLongEnough (accumulate s).sbc = true := by
    rw [breakLongEnough_iff, accumulate_eq_eightMore]
    exact not_lt.2 h
  rw [execBrkZero, if_neg hnot]

/-- A count above the threshold ends the break (R142). -/
theorem execBrkZero_of_gt {s : State} (h : 165 < eightMore s) :
    execBrkZero s = .next (advance 1 (changeState .waitForMab (accumulate s))) := by
  have hlong : breakLongEnough (accumulate s).sbc = true := by
    rw [breakLongEnough_iff, accumulate_eq_eightMore]
    exact h
  rw [execBrkZero, if_pos hlong]

/-- Settles O11: the two sides of the threshold, and the zero byte, which selects BRK.ZERO. -/
theorem brkZeroCountsTheBreak : Obligations.BrkZeroCountsTheBreak := by
  intro s
  refine ⟨fun hle => ?_, fun hgt => ?_, fun hx => step_of_encode hx rfl rfl rfl⟩
  · exact (execBrkZero_of_le hle).trans (next_advance_accumulate s)
  · refine (execBrkZero_of_gt hgt).trans ?_
    rw [accumulate_eq_eightMore]
    rfl

/-- Settles O14: all four operations count eight samples, and in each state the level byte selects the one of that state. -/
theorem levelBytesAddEightSamples : Obligations.LevelBytesAddEightSamples := by
  intro s
  have hcount := next_advance_accumulate s
  refine ⟨hcount, hcount, hcount, hcount, ?_⟩
  rintro (hx | hx | hx | hx)
  · exact (step_of_encode (i := .mabOnes) hx rfl rfl rfl).trans hcount
  · exact (step_of_encode (i := .scZero) hx rfl rfl rfl).trans hcount
  · exact (step_of_encode (i := .scsOnes) hx rfl rfl rfl).trans hcount
  · exact (step_of_encode (i := .dspOnes) hx rfl rfl rfl).trans hcount

/-! ### The loss of lock (O12, O15) -/

/-- A loss of lock whose byte is consumed, in the terms of the statements (R117, R201). -/
theorem next_advance_lockLoss (c : LockLossCause) (s : State) :
    (.next (advance 1 (lockLoss c s)) : Result) = .next { unlocked s with pc := s.pc + 1 } := rfl

/-- A byte that is neither a state's level byte nor its edge, as `Instr.wellFormed` says it. -/
theorem noise_wellFormed {b level : Byte} {edge : Option Nat} (hb : b ≠ level) (hedge : edge = none) :
    (b != level && edge.isNone) = true := by
  rw [bne_iff_ne.2 hb, hedge]
  rfl

/-- Settles O12: each of the five is `next_advance_lockLoss`, and each state's noise byte selects the one of that state. -/
theorem noiseLosesTheLockInFraming : Obligations.NoiseLosesTheLockInFraming := by
  intro s b
  refine ⟨next_advance_lockLoss .brkShort s, next_advance_lockLoss .wfmNoise s, next_advance_lockLoss .mabNoedge s,
    next_advance_lockLoss .scNoedge s, next_advance_lockLoss .scsNoedge s, ?_⟩
  rintro (⟨hx, hb⟩ | ⟨hx, hb, hedge⟩ | ⟨hx, hb, hedge⟩ | ⟨hx, hb, hedge⟩ | ⟨hx, hb, hedge⟩)
  · exact step_of_encode (i := .brkAbort b) hx (bne_iff_ne.2 hb) rfl rfl
  · exact step_of_encode (i := .wfmAbort b) hx (noise_wellFormed hb hedge) rfl rfl
  · exact step_of_encode (i := .mabNoise b) hx (noise_wellFormed hb hedge) rfl rfl
  · exact step_of_encode (i := .scNoise b) hx (noise_wellFormed hb hedge) rfl rfl
  · exact step_of_encode (i := .scsNoise b) hx (noise_wellFormed hb hedge) rfl rfl

/-- A mark-after-break below the threshold loses the lock (R148). -/
theorem execMabFall_of_short {s : State} {z : Nat} (h : s.sbc + (8 - z) ≤ 15) :
    execMabFall z s = .next (advance 1 (lockLoss .mabShort s)) := by
  have hshort : mabTooShort (onesTotal s.sbc z) = true := (mabTooShort_iff _).2 h
  rw [execMabFall, if_pos hshort]

/-- A mark-after-break above the threshold is followed by the start code (R148). -/
theorem execMabFall_of_long {s : State} {z : Nat} (h : 15 < s.sbc + (8 - z)) :
    execMabFall z s = .next (advance 1 (enterWith .inStartcode z s)) := by
  have hnot : ¬mabTooShort (onesTotal s.sbc z) = true := by
    rw [mabTooShort_iff]
    exact not_le.2 h
  rw [execMabFall, if_neg hnot]

/-- Settles O15: the two sides of the threshold, and the falling edge, which is the byte of MAB.FALL. -/
theorem mabFallTestsTheMab : Obligations.MabFallTestsTheMab :=
  fun _ _ => ⟨execMabFall_of_short, execMabFall_of_long, fun _ hx hz => step_of_fallingEdge hx hz rfl rfl rfl⟩

end Sys2Proof.Proofs

/-! The two tests of the start-code slot: the window of its low time and the minimum of its stop bits (O16, O17). -/

namespace Sys2Proof.Proofs

open Sys2Proof.Machine Sys2Proof.Claims

section
variable {s : State} {n : Nat}

/-! ### The low time of the start code (O16) -/

/-- A low time inside the window is followed by the stop bits (R162). -/
theorem execScRise_of_inside (h : 67 < s.sbc + (8 - n) ∧ s.sbc + (8 - n) < 77) :
    execScRise n s = .next (advance 1 (enterWith .inStartcodeStopbits n s)) := by
  have hinside : inStartcodeWindow (zerosTotal s.sbc n) = true := (inStartcodeWindow_iff _).2 h
  rw [execScRise, if_pos hinside]

/-- A low time outside the window, whose two bounds are excluded, loses the lock (R162). -/
theorem execScRise_of_outside (h : s.sbc + (8 - n) ≤ 67 ∨ 77 ≤ s.sbc + (8 - n)) :
    execScRise n s = .next (advance 1 (lockLoss .scWindow s)) := by
  have hnot : ¬inStartcodeWindow (zerosTotal s.sbc n) = true := by
    rw [inStartcodeWindow_iff, zerosTotal_eq]
    omega
  rw [execScRise, if_neg hnot]

/-! ### The stop bits of the start code (O17) -/

/-- Stop bits of at most 15 samples lose the lock (R166). -/
theorem execScsFall_of_short (h : s.sbc + (8 - n) ≤ 15) :
    execScsFall n s = .next (advance 1 (lockLoss .scsShort s)) := by
  have hshort : stopTooShort (onesTotal s.sbc n) = true := (stopTooShort_iff _).2 h
  rw [execScsFall, if_pos hshort]

/-- Longer stop bits are followed by the start bit of slot 0 (R166). -/
theorem execScsFall_of_long (h : 15 < s.sbc + (8 - n)) :
    execScsFall n s = .next (advance 1 (enterWith .inDataStartbit n s)) := by
  have hnot : ¬stopTooShort (onesTotal s.sbc n) = true := by
    rw [stopTooShort_iff]
    exact not_le.2 h
  rw [execScsFall, if_neg hnot]

end

/-- Settles O16: the inside and the outside of the window, and the rising edge, which is the byte of SC.RISE. -/
theorem scRiseTestsTheWindow : Obligations.ScRiseTestsTheWindow :=
  fun _ _ => ⟨execScRise_of_inside, execScRise_of_outside, fun _ hx ho => step_of_risingEdge hx ho rfl rfl rfl⟩

/-- Settles O17: the two sides of the threshold, and the falling edge, which is the byte of SCS.FALL. -/
theorem scsFallTestsTheStopBits : Obligations.ScsFallTestsTheStopBits :=
  fun _ _ => ⟨execScsFall_of_short, execScsFall_of_long, fun _ hx hz => step_of_fallingEdge hx hz rfl rfl rfl⟩

end Sys2Proof.Proofs

/-! The data-slot sampler: the start bit (O18, O19, O36), the data bits (O20) and the seed of the stop-bit count (O21). -/

namespace Sys2Proof.Proofs

open Sys2Proof.Machine Sys2Proof.Claims

/-! ### The bit sampler in the terms of the statements -/

/-- The start-bit test on a sampled bit reads that bit of the byte (R133, R171, R172). -/
theorem checkStartBit_sample (b : Byte) (p : Nat) (s : State) :
    checkStartBit (sample b p) p s = startBitTested b p s := by
  rw [samplerReadsOneBit b p, startBitTested]
  cases b.getLsbD p with
  | false => rfl
  | true => rfl

/-- The sample that is ORed into the value is the byte's bit, moved to its position (R92, R133). -/
theorem orDataBit_eq_or_bitAt (v b : Byte) (p k : Nat) : orDataBit v b p k = v ||| bitAt b p k := by
  rw [orDataBit, samplerReadsOneBit b p, bitAt]

section
variable {s : State} {b prev : Byte}

/-! ### The start bit (O18, O19) -/

/-- The register condition of DSB.CUR (R88). -/
theorem dsbCur_enabled (n : Nat) (v b : Byte) : (Instr.dsbCur b).enabled n v = true ↔ n < 4 := by
  rw [Instr.enabled, Bool.not_eq_true', Bool.eq_false_iff, Ne, startSampleInPrev_iff, not_le]

/-- The look-back at a byte of the chunk tests its bit `sbc - 4` (R171). -/
theorem exec_dsbPrev_of_read (b : Byte) (hpc : 1 ≤ s.pc) (hsize : s.pc ≤ s.size)
    (hprev : Memory.read s.chunk (s.pc - 1) = some prev) :
    exec (.dsbPrev b) s = .next (startBitTested prev (s.sbc - 4) s) := by
  have haddr : ((s.pc : Int) - 1).toNat = s.pc - 1 := by omega
  have hread : execDsbPrev s = .next (checkStartBit (sample prev (s.sbc - 4)) (s.sbc - 4) s) :=
    readCap_of_some _ (by omega) (by omega) (haddr ▸ hprev)
  exact hread.trans (congrArg _ (checkStartBit_sample ..))

/-- With half the start bit in the byte before, its middle is looked for there (R89, R171). -/
theorem step_eq_exec_dsbPrev (hx : Examines s .inDataStartbit b) (hlate : 4 ≤ s.sbc) :
    step s = exec (.dsbPrev b) s :=
  step_of_encode hx rfl ((startSampleInPrev_iff _).2 hlate) rfl

/-- The start bit in the current byte is its bit `sbc + 4` (R172). -/
theorem exec_dsbCur (b : Byte) (s : State) :
    exec (.dsbCur b) s = .next (startBitTested b (s.sbc + 4) { s with pc := s.pc + 1 }) :=
  congrArg _ (checkStartBit_sample ..)

/-- With less of the start bit in the byte before, its middle is in the current byte (R89, R172). -/
theorem step_eq_exec_dsbCur (hx : Examines s .inDataStartbit b) (hearly : s.sbc < 4) :
    step s = exec (.dsbCur b) s :=
  step_of_encode hx rfl ((dsbCur_enabled ..).2 hearly) rfl

/-! ### The data bits (O20, O21) -/

/-- A data bit is ORed in at its position and counted (R173). -/
theorem exec_dbBit (b : Byte) (s : State) :
    exec (.dbBit b) s = .next { s with val := s.val ||| bitAt b s.sp s.sbc, sbc := s.sbc + 1, pc := s.pc + 1 } := by
  rw [← orDataBit_eq_or_bitAt]
  rfl

/-- With four or more samples left in the byte, these begin the stop-bit count (R174). -/
theorem exec_dbLast_of_late (b : Byte) (hlate : 4 ≤ s.sp) :
    exec (.dbLast b) s =
      .next { s with val := s.val ||| bitAt b s.sp 7, state := .inDataStopbits, sbc := s.sp, pc := s.pc + 1 } := by
  refine (execDbLast_eq b s).trans ?_
  rw [if_pos hlate, if_pos hlate, orDataBit_eq_or_bitAt]
  rfl

/-- With fewer samples left, the next byte is skipped and counts as eight more (R174). -/
theorem exec_dbLast_of_early (b : Byte) (hearly : s.sp < 4) :
    exec (.dbLast b) s =
      .next { s with val := s.val ||| bitAt b s.sp 7, state := .inDataStopbits, sbc := s.sp + 8, pc := s.pc + 2 } := by
  refine (execDbLast_eq b s).trans ?_
  rw [if_neg (not_le.2 hearly), if_neg (not_le.2 hearly), orDataBit_eq_or_bitAt]
  rfl

/-! ### The edge byte before the start bit (O36) -/

/-- The edge byte of a slot is low in its last `sbc` samples, also after the alternating edge of DSP.ALT (R33 (b), R170). -/
theorem edgeByte_low {n p : Nat} (hedge : fallingEdge b = some n ∨ (b = 0x01#8 ∧ n = 7)) (hp : p + 4 = n) :
    b.getLsbD p = false := by
  obtain hfall | ⟨rfl, rfl⟩ := hedge
  · obtain ⟨-, hle, hbits⟩ := (fallingEdge_eq_some_iff b n).1 hfall
    exact (hbits p (by omega)).trans (decide_eq_false (by omega))
  · obtain rfl : p = 3 := by omega
    rfl

/-- A start bit that reads 0 enters IN_DATA_BITS (R171, R172). -/
theorem startBitTested_of_low {p : Nat} (hlow : b.getLsbD p = false) (s : State) :
    startBitTested b p s = { s with state := .inDataBits, sbc := 0, sp := p, val := 0#8 } := by
  rw [startBitTested, hlow]
  rfl

end

/-- Settles O36: by the invariant the byte before is the slot's edge byte, which is low at `sbc - 4`. -/
theorem lookBackFindsAValidStartBit : Obligations.LookBackFindsAValidStartBit := by
  intro s b hi hx hlate
  have ⟨hbusy, _, hst, _⟩ := hx
  obtain ⟨hpc, hsize, prev, hprev, hedge⟩ := hi.edge hbusy hst
  have hlow : prev.getLsbD (s.sbc - 4) = false := edgeByte_low hedge (by omega)
  rw [step_eq_exec_dsbPrev hx hlate, exec_dsbPrev_of_read b hpc hsize hprev, startBitTested_of_low hlow]

/-- Settles O18: the look-back at a readable byte, which a step with `sbc ≥ 4` performs. -/
theorem dsbPrevTestsThePreviousByte : Obligations.DsbPrevTestsThePreviousByte := by
  intro s b prev hpc hsize hprev
  have hexec := exec_dsbPrev_of_read b hpc hsize hprev
  exact ⟨hexec, fun hx hlate => (step_eq_exec_dsbPrev hx hlate).trans hexec⟩

/-- Settles O19: the test in the current byte, which a step with `sbc < 4` performs. -/
theorem dsbCurTestsTheCurrentByte : Obligations.DsbCurTestsTheCurrentByte :=
  fun s b => ⟨exec_dsbCur b s, fun hx hearly => (step_eq_exec_dsbCur hx hearly).trans (exec_dsbCur b s)⟩

/-- Settles O20: the data bit, which a step with `sbc < 7` reads. -/
theorem dbBitOrsInOneBit : Obligations.DbBitOrsInOneBit :=
  fun s b => ⟨exec_dbBit b s, fun hx hmore =>
    (step_of_encode hx rfl ((dbBit_enabled ..).2 hmore) rfl).trans (exec_dbBit b s)⟩

/-- Settles O21: the two seeds of the stop-bit count, and the count 7, at which a step performs DB.LAST. -/
theorem dbLastSeedsTheStopBits : Obligations.DbLastSeedsTheStopBits :=
  fun _ b => ⟨exec_dbLast_of_late b, exec_dbLast_of_early b, fun hx hlast =>
    step_of_encode hx rfl ((dbLast_enabled ..).2 hlast) rfl⟩

end Sys2Proof.Proofs

/-! The channel demultiplexer: early termination and where it is possible (O22, O48), the slot boundary (O23, O24) and the
noise byte (O25). -/

namespace Sys2Proof.Proofs

open Sys2Proof.Machine Sys2Proof.Claims

/-! ### Early termination (O22, O48) -/

/-- The register condition of DSP.EARLY (R88, R182). -/
theorem dspEarly_enabled (n : Nat) (v : Byte) : Instr.dspEarly.enabled n v = true ↔ n ≤ 11 ∧ v = 0#8 :=
  earlyTermination_iff n v

/-- Only a count of at most 11 lets a byte select DSP.EARLY (R182). -/
theorem count_le_of_decodeByte_dspEarly {sbc : Nat} {val b : Byte} {st : LineState}
    (h : decodeByte sbc val st b = some .dspEarly) : sbc ≤ 11 :=
  ((dspEarly_enabled sbc val).1 (names_of_decodeByte h).enabled).1

/-- Eight more samples take any count of at least 4 past the bound of early termination: a register that meets R10 holds
12 (R105, R187). -/
theorem twelve_le_accumulate {s : State} (hw : WidthsOk s.widths) (hlow : 4 ≤ s.sbc) : 12 ≤ (accumulate s).sbc :=
  le_saturate hw (by decide) (Nat.add_le_add_right hlow 8)

/-- Settles O48: the count enters IN_DATA_STOPBITS with at least 4, so it passes 11 with the first byte of ones. -/
theorem earlyTerminationNeedsTheFirstByte : Obligations.EarlyTerminationNeedsTheFirstByte := by
  intro s t hi hx hstep
  have ⟨_, _, hst, _⟩ := hx
  have hcount := hi.count
  rw [CountInRange, hst] at hcount
  obtain ⟨hlow, -⟩ := hcount
  have hpast : 12 ≤ (accumulate s).sbc := twelve_le_accumulate hi.widthsOk hlow
  have ht : step s = .next (advance 1 (accumulate s)) := step_of_encode (i := .dspOnes) hx rfl rfl rfl
  cases ht.symm.trans hstep
  refine ⟨hst, hpast, fun b hearly => ?_⟩
  have hle : (accumulate s).sbc ≤ 11 := count_le_of_decodeByte_dspEarly hearly
  omega

/-- With a slot left to clear, early termination fills to the end of the sink, completes and counts on in the break
(R182). -/
theorem exec_dspEarly_fills_and_closes {s : State} (hlow : -1 ≤ s.cc) (hhigh : s.cc ≤ 510) :
    exec .dspEarly s = .next { completed { s with
      sinks := Memory.fill s.sinks (slotAddr s.sinkRef (s.cc + 1).toNat) 0#8 (511 - s.cc).toNat
      outputs := s.outputs ++
        [.sinkFill (BitVec.ofNat 9 (s.cc + 1).toNat) 0#8 (BitVec.ofNat 10 (511 - s.cc).toNat)] } with
      cc := 511, state := .inBreak, sbc := 80, pc := s.pc + 1 } := by
  have hfill := sinkFill_of_slots (a := s.cc + 1) (n := 511 - s.cc) 0#8 s (by omega) (by omega) (by omega) (by omega)
  have harm : exec .dspEarly s = execDspEarly s := rfl
  rw [harm, execDspEarly, lastSlot_eq, hfill, andThen_next]
  rfl

/-- Settles O22: the fill is inside the sink, and 0x00 is the byte of DSP.EARLY under its register condition. -/
theorem dspEarlyFillsAndCloses : Obligations.DspEarlyFillsAndCloses :=
  fun s hlow hhigh => ⟨exec_dspEarly_fills_and_closes hlow hhigh, fun hx hle hval =>
    step_of_encode hx rfl ((dspEarly_enabled s.sbc s.val).2 ⟨hle, hval⟩) rfl⟩

/-! ### The slot boundary (O23, O24) -/

/-- The register condition of DSP.FALL: the row of DSP.EARLY, which stands before it, does not take the byte (R88, R183). -/
theorem dspFall_enabled (n : Nat) (v : Byte) (z : Nat) :
    (Instr.dspFall z).enabled n v = true ↔ ¬(z = 8 ∧ n ≤ 11 ∧ v = 0#8) := by
  rw [Instr.enabled, Bool.not_eq_true', Bool.eq_false_iff, Ne, Bool.and_eq_true, decide_eq_true_iff, earlyTermination_iff]

/-- Settles O23: with `cc` in its range the boundary goes on, and of the falling edges only 0x00 ends eight samples low. -/
theorem dspFallAcceptsOrAborts : Obligations.DspFallAcceptsOrAborts := by
  intro s z hlow hhigh
  have hexec : exec (.dspFall z) s = .next (boundary z s) := slotBoundary_of_range z hlow hhigh
  refine ⟨hexec, fun b hx hz hnot => ?_⟩
  have hen : (Instr.dspFall z).enabled s.sbc s.val = true := by
    rw [dspFall_enabled]
    rintro ⟨rfl, hearly⟩
    exact hnot ⟨eq_fallByte hz, hearly⟩
  exact (step_of_fallingEdge hx hz rfl hen rfl).trans hexec

/-- Settles O24: DSP.ALT is the boundary of seven, and 0x01 is its byte. -/
theorem dspAltIsABoundaryOfSeven : Obligations.DspAltIsABoundaryOfSeven := by
  intro s hlow hhigh
  have hexec : exec .dspAlt s = .next (boundary 7 s) := slotBoundary_of_range 7 hlow hhigh
  exact ⟨hexec, fun hx => (step_of_encode hx rfl rfl rfl).trans hexec⟩

/-! ### The noise byte (O25) -/

/-- A byte that DSP.NOISE takes, as `Instr.wellFormed` says it. -/
theorem dspNoise_wellFormed {b : Byte} (hones : b ≠ 0xFF#8) (hedge : fallingEdge b = none) (halt : b ≠ 0x01#8) :
    (Instr.dspNoise b).wellFormed = true := by
  rw [Instr.wellFormed, noise_wellFormed hones hedge, bne_iff_ne.2 halt]
  rfl

/-- Settles O25: the loss of lock follows the completion, and the byte is one of DSP.NOISE. -/
theorem dspNoiseCompletesAndAborts : Obligations.DspNoiseCompletesAndAborts := by
  intro s b
  have hexec : exec (.dspNoise b) s = .next { unlocked (completed s) with pc := s.pc + 1 } :=
    next_advance_lockLoss .dspNoedge (complete s)
  exact ⟨hexec, fun hx hones hedge halt =>
    (step_of_encode hx (dspNoise_wellFormed hones hedge halt) rfl rfl).trans hexec⟩

end Sys2Proof.Proofs

/-! The completion signal of a step (O45) and what a loss of lock leaves (O47). -/

namespace Sys2Proof.Proofs

open Sys2Proof.Machine Sys2Proof.Claims

/-! ### The completion signal (O45) -/

/-- A slot boundary completes at most once, with short stop bits or after slot 511, and then leaves the data region
(R183, R185). -/
theorem boundary_completes_once (z : Nat) (s : State) :
    (boundaryEvents z s).count .complete ≤ 1 ∧
    (.complete ∈ boundaryEvents z s → (boundary z s).state = .waitForBreak ∨ (boundary z s).state = .inBreak) := by
  unfold boundary boundaryEvents
  split
  · exact ⟨le_rfl, fun _ => .inl rfl⟩
  · split
    · exact ⟨le_rfl, fun _ => .inr rfl⟩
    · exact ⟨Nat.zero_le 1, fun hmem => by simp at hmem⟩

/-- An operation that a byte selects completes at most once, and then ends in WAIT_FOR_BREAK or IN_BREAK (R205, R206). -/
theorem stepOp_completes_once {i : Instr} {s t : State} (hop : isStepOp i = true) (hex : exec i s = .next t) :
    (eventsOf i s).count .complete ≤ 1 ∧
    (.complete ∈ eventsOf i s → t.state = .waitForBreak ∨ t.state = .inBreak) := by
  obtain ⟨hev, -⟩ | ⟨z, hev, rfl⟩ | ⟨rfl, hearly⟩ | ⟨hev, rfl⟩ := exec_stepOp_cases hop hex
  · rw [hev]
    exact ⟨Nat.zero_le 1, nofun⟩
  · rw [hev]
    exact boundary_completes_once z s
  · obtain ⟨-, -, rfl⟩ := execDspEarly_eq_next hearly
    exact ⟨le_rfl, fun _ => .inr rfl⟩
  · rw [hev]
    exact ⟨le_rfl, fun _ => .inl rfl⟩

/-- Only in IN_DATA_STOPBITS does a byte select an operation that completes (R205). -/
theorem eq_inDataStopbits_of_completes {sbc : Nat} {st : LineState} {b : Byte} {i : Instr} {s : State}
    (hsel : Selects sbc st b i) (hmem : .complete ∈ eventsOf i s) : st = .inDataStopbits := by
  cases hsel with
  | dspOnes | dspEarly | dspFall | dspAlt | dspNoise => rfl
  | _ => cases hmem

/-- Settles O45: the events are those of the operation that the byte selects. -/
theorem aCompletionLeavesTheDataRegion : Obligations.ACompletionLeavesTheDataRegion := by
  intro s t st b hx h
  obtain ⟨i, hsel, hex⟩ := selects_of_step hx h
  obtain ⟨hout, -⟩ := eventsAreThoseOfTheOperation i s t hex
  obtain ⟨honce, hleaves⟩ := stepOp_completes_once hsel.isStepOp hex
  exact ⟨eventsOf i s, hout, honce, fun hmem => ⟨eq_inDataStopbits_of_completes hsel hmem, hleaves hmem⟩⟩

/-! ### The loss of lock (O47) -/

/-- The state a loss of lock in the given state leaves: the registers of R201; the start-bit test keeps its sampling position
and does not consume the byte when it looks back (R171, R172); the stop bits complete first (R183, R186). -/
inductive LockLost (s : State) : LineState → State → Prop where
  | framing {st : LineState} (hstart : st ≠ .inDataStartbit) (hstop : st ≠ .inDataStopbits) :
      LockLost s st { unlocked s with pc := s.pc + 1 }
  | lookBack (p : Nat) (late : 4 ≤ s.sbc) : LockLost s .inDataStartbit { unlocked s with sp := p }
  | startBit (p : Nat) (early : s.sbc < 4) : LockLost s .inDataStartbit { unlocked s with sp := p, pc := s.pc + 1 }
  | stopBits : LockLost s .inDataStopbits { unlocked (completed s) with pc := s.pc + 1 }

/-- A start-bit test that ends in WAIT_FOR_BREAK has read a 1: it keeps the sampling position and the rest (R171, R172). -/
theorem checkStartBit_eq_of_lost {bit : Byte} {p : Nat} {s : State}
    (h : (checkStartBit bit p s).state = .waitForBreak) : checkStartBit bit p s = { unlocked s with sp := p } := by
  obtain ⟨-, heq⟩ | ⟨-, heq⟩ := checkStartBit_cases bit p s
  · exact heq
  · rw [heq] at h
    cases h

/-- A slot boundary that ends in WAIT_FOR_BREAK has met short stop bits (R183). -/
theorem boundary_eq_of_lost {z : Nat} {s : State} (h : (boundary z s).state = .waitForBreak) :
    boundary z s = { unlocked (completed s) with pc := s.pc + 1 } := by
  unfold boundary at h ⊢
  split at h
  · exact if_pos ‹_›
  · split at h <;> cases h

/-- Every operation that a byte selects outside WAIT_FOR_BREAK and that ends there has lost the lock (R200). -/
theorem lockLost_of_selects {st : LineState} {b : Byte} {i : Instr} {s t : State} (hsel : Selects s.sbc st b i)
    (hst : s.state = st) (hne : st ≠ .waitForBreak) (hex : exec i s = .next t) (ht : t.state = .waitForBreak) :
    LockLost s st t := by
  cases hsel with
  | wfbFall | wfbScan => exact absurd rfl hne
  | wfmHold | mabOnes | scZero | scsOnes | dbBit | dspOnes =>
    cases hex
    exact absurd (hst.symm.trans ht) hne
  | wfmRise =>
    cases hex
    cases ht
  | brkAbort | wfmAbort | mabNoise | scNoise | scsNoise =>
    cases hex
    exact .framing nofun nofun
  | brkZero =>
    obtain ⟨-, rfl⟩ | ⟨-, rfl⟩ := execBrkZero_eq_next hex
    · exact absurd (hst.symm.trans ht) hne
    · cases ht
  | mabFall | scsFall =>
    cases hex
    revert ht
    split
    · exact fun _ => .framing nofun nofun
    · nofun
  | scRise =>
    cases hex
    revert ht
    split
    · nofun
    · exact fun _ => .framing nofun nofun
  | dsbPrev late =>
    obtain ⟨prev, -, -, -, hk⟩ := readCap_eq_next hex
    cases hk
    rw [checkStartBit_eq_of_lost ht]
    exact .lookBack _ late
  | dsbCur early =>
    cases hex
    rw [checkStartBit_eq_of_lost ht]
    exact .startBit _ early
  | dbLast =>
    cases (execDbLast_eq b s).symm.trans hex
    cases ht
  | dspEarly =>
    obtain ⟨-, -, rfl⟩ := execDspEarly_eq_next hex
    cases ht
  | dspFall | dspAlt =>
    cases slotBoundary_eq_boundary hex
    rw [boundary_eq_of_lost ht]
    exact .stopBits
  | dspNoise =>
    cases hex
    exact .stopBits

/-- Settles O47: the four kinds of loss of lock differ in the sampling position, the byte and the completion alone. -/
theorem lossOfLockKeepsTheRegisters : Obligations.LossOfLockKeepsTheRegisters := by
  intro s t st b hx hne h ht
  obtain ⟨i, hsel, hex⟩ := selects_of_step hx h
  obtain ⟨-, -, hst, -⟩ := hx
  cases lockLost_of_selects hsel hst hne hex ht with
  | framing hstart hstop =>
    rw [if_neg fun ⟨hst, _⟩ => hstart hst, if_neg hstop, List.append_nil]
    exact ⟨rfl, rfl, rfl, rfl, fun _ => rfl, rfl, rfl⟩
  | lookBack p late =>
    rw [if_pos ⟨rfl, late⟩, if_neg nofun, List.append_nil]
    exact ⟨rfl, rfl, rfl, rfl, fun hstart => absurd rfl hstart, rfl, rfl⟩
  | startBit p early =>
    rw [if_neg fun ⟨_, hlate⟩ => not_le.2 early hlate, if_neg nofun, List.append_nil]
    exact ⟨rfl, rfl, rfl, rfl, fun hstart => absurd rfl hstart, rfl, rfl⟩
  | stopBits => exact ⟨rfl, rfl, rfl, rfl, fun _ => rfl, rfl, rfl⟩

end Sys2Proof.Proofs

/-! The chunks for which PARSE.BEGIN starts no call between calls (O59). With `execParseBegin_of_busy` and
`execParseBegin_of_fit` the lemmas below give the answer of every branch of PARSE.BEGIN. -/

namespace Sys2Proof.Proofs

open Sys2Proof.Machine Sys2Proof.Claims

/-- PARSE.BEGIN between calls, for a chunk longer than the cursor can index (U13; log 18). -/
theorem execParseBegin_of_tooLong {s : State} {size : Nat} (chunk : Memory) (hidle : s.busy = false)
    (hlong : cursorHolds s.widths.cursor size = false) :
    execParseBegin chunk size s = .refused .chunkTooLong := by
  rw [execParseBegin, if_neg (by simp [hidle]), if_pos (by simp [hlong])]

/-- PARSE.BEGIN between calls, for a chunk that the cursor holds and that lacks a byte (R236 row 6, U6; log 18). -/
theorem execParseBegin_of_unreadable {s : State} {chunk : Memory} {size : Nat} (hidle : s.busy = false)
    (hheld : cursorHolds s.widths.cursor size = true) (hlack : Memory.readableTo chunk size = false) :
    execParseBegin chunk size s = .refused .chunkUnreadable := by
  rw [execParseBegin, if_neg (by simp [hidle]), if_neg (by simp [hheld]), if_pos (by simp [hlack])]

/-- A cursor of `w` bits does not hold a chunk with `2 ^ w ≤ size + 1` (R10, D13). -/
theorem cursorHolds_eq_false {w size : Nat} (hlong : 2 ^ w ≤ size + 1) : cursorHolds (some w) size = false :=
  Bool.eq_false_iff.2 fun hheld => absurd ((cursorHolds_some w size).1 hheld) (not_lt.2 hlong)

/-- Settles O59: the length is the first check on the chunk and the readable bytes are the second. -/
theorem unfitChunksStartNoCall : Obligations.UnfitChunksStartNoCall := by
  intro s chunk size hidle
  constructor
  · intro hheld hlack
    have hfails : Memory.readableTo chunk size = false :=
      Bool.eq_false_iff.2 fun hread => hlack ((Memory.readableTo_iff chunk size).1 hread)
    exact execParseBegin_of_unreadable hidle hheld hfails
  · intro w hw hlong
    exact execParseBegin_of_tooLong chunk hidle (hw ▸ cursorHolds_eq_false hlong)

end Sys2Proof.Proofs
